-- ==== Sys2Proof/Word.lean ====
section
/-! DEFINITION. Bytes, byte sequences, words and the State Matrix (00_scope.md R10, R11; 41_state_transforms.md R130). -/

namespace Sys2Proof

/-- An 8-bit unsigned value, bit 7 the most significant (R10). -/
abbrev Byte := BitVec 8

/-- `Bytes(*)`: a byte sequence, byte 0 first (R11, R43). -/
abbrev Bytes := List Byte

/-- A word: one key-schedule column, a `Bytes(4)` (R11). -/
@[ext]
structure Word where
  b0 : Byte
  b1 : Byte
  b2 : Byte
  b3 : Byte
deriving DecidableEq, Repr

/-- `w[k]`. -/
def Word.get (w : Word) (k : Fin 4) : Byte :=
  match k with
  | 0 => w.b0
  | 1 => w.b1
  | 2 => w.b2
  | 3 => w.b3

/-- The word whose byte k is `f k`. -/
def Word.ofFn (f : Fin 4 → Byte) : Word := ⟨f 0, f 1, f 2, f 3⟩

/-- Bytewise XOR of two words (R11). -/
def Word.xor (v w : Word) : Word := ⟨v.b0 ^^^ w.b0, v.b1 ^^^ w.b1, v.b2 ^^^ w.b2, v.b3 ^^^ w.b3⟩

/-- The word of four zero bytes. -/
def Word.zero : Word := ⟨0, 0, 0, 0⟩

/-- The word as its `Bytes(4)`. -/
def Word.toBytes (w : Word) : Bytes := [w.b0, w.b1, w.b2, w.b3]

/-- The State Matrix: four columns, each the four bytes of rows 0..3 (R130). -/
@[ext]
structure StateMatrix where
  c0 : Word
  c1 : Word
  c2 : Word
  c3 : Word
deriving DecidableEq, Repr

/-- Column c. -/
def StateMatrix.col (S : StateMatrix) (c : Fin 4) : Word :=
  match c with
  | 0 => S.c0
  | 1 => S.c1
  | 2 => S.c2
  | 3 => S.c3

/-- `S[r][c]`. -/
def StateMatrix.get (S : StateMatrix) (r c : Fin 4) : Byte := (S.col c).get r

/-- The matrix with `S[r][c] = f r c`: every byte is computed before any is replaced (R131). -/
def StateMatrix.ofFn (f : Fin 4 → Fin 4 → Byte) : StateMatrix :=
  ⟨.ofFn fun r => f r 0, .ofFn fun r => f r 1, .ofFn fun r => f r 2, .ofFn fun r => f r 3⟩

end Sys2Proof
end

