-- ==== Sys2Proof/Syntax.lean ====
section
/-! DEFINITION. The 24 operations (R63), the port formats (R62), and the host's transactions (R60, R66, D23). -/

namespace Sys2Proof

/-- One constructor per row of spec/opcode_table.json. No operation carries an operand in its op code (R60, R65):
the operands come from the ports. -/
inductive Instr where
  | sbox
  | invSbox
  | rcon
  | gfmul
  | subBytes
  | invSubBytes
  | shiftRows
  | invShiftRows
  | mixColumns
  | invMixColumns
  | ks128
  | ks192
  | ks256
  | expandKey
  | encryptBlock
  | decryptBlock
  | ecbEnc
  | ecbDec
  | cbcEnc
  | cbcDec
  | cfbEnc
  | cfbDec
  | ctrEnc
  | ctrDec
deriving DecidableEq, Repr

/-- The operand ports of R62. -/
inductive PortName where
  | a
  | b
  | s
  | key
  | block
  | iv
  | msg
deriving DecidableEq, Repr

/-- `Bytes(n)` is fixed width; `Bytes(*)` carries its own length (R62). -/
inductive PortWidth where
  | fixed (n : Nat)
  | any
deriving DecidableEq, Repr

/-- The port formats of R62. -/
inductive PortFormat where
  | l8
  | g8
  | s128
  | kf16
  | kf24
  | kf32
  | kv
  | bk
  | mk
  | mik
deriving DecidableEq, Repr

/-- An operand of a transaction as the host writes it (R66): a literal, or the name of a host buffer that an earlier
result was stored under. -/
inductive Source where
  | lit (v : Bytes)
  | buf (name : Nat)
deriving DecidableEq, Repr

/-- One line of a host program, `MNEMONIC dst, src1, src2, ...` (R66, D23): the op code, the name the host stores the
result under, and the operands in port order. -/
structure Command where
  op : Byte
  dst : Nat
  srcs : List Source
deriving DecidableEq, Repr

/-- What the host does to the block: issue a transaction, or assert reset, with the transaction that is then in progress,
if one is (R22, R310). -/
inductive HostEvent where
  | issue (c : Command)
  | reset (running : Option Command)
deriving DecidableEq, Repr

end Sys2Proof
end

