-- ==== Sys2Proof/Machine/State.lean ====
section
/-! DEFINITION. The machine's state as plain data (10_state.md): the ROMs, the ports of the transaction, the transient
datapath registers, and the host side that a program of transactions needs (D23). The block has no program counter, no
general registers, no flags, no control registers, no memory and no modes (R22 to R25, R40, R290), so no field holds one. -/

namespace Sys2Proof.Machine

/-- The three error statuses of R281, R284 and R285. -/
inductive Error where
  | invalidKeyLength
  | invalidBlockLength
  | emptyInput
deriving DecidableEq, Repr

/-- The per-transaction status of R280. Its 2-bit codes are Flags.lean's `Status.code`. -/
inductive Status where
  | ok
  | err (e : Error)
deriving DecidableEq, Repr

/-- The model faults of R287: cases the spec gives no meaning, with no status and no result. -/
inductive Fault where
  /-- Raised by RCON with index 0 or 11..255 (R106, U3). Safe: the hardware's answer is unspecified and nothing about it
  can be proved. -/
  | rconIndexOutOfDomain
  /-- Raised by ECB_DEC and CBC_DEC when every decrypted byte is 0x00 (R223, U4). Safe: as above. -/
  | unpadUnderflow
deriving DecidableEq, Repr

/-- The refusals of R288: transactions the model does not execute at all. -/
inductive Refusal where
  /-- Raised by `exec` for an instruction that has no meaning yet. No arm raises it in this model. Safe. -/
  | notModelled (mnemonic : String)
  /-- Raised by the fetch for an op code outside R63 (R64, R288). Safe: no result, no status. -/
  | unassignedOp (op : Byte)
  /-- Raised by the fetch, and by a meaning whose own port is undriven or of the wrong width: the operands do not fit
  the op's format (R62, R288, D25). Safe: such a value cannot stand on such a port. -/
  | illFormedOperands
  /-- Raised by CTR_ENC and CTR_DEC for a message of more than 2^64 blocks (R7, R260, R288, D15). Safe. -/
  | ctrMessageTooLong
  /-- Raised by the fetch when an operand names a host buffer that holds no value: the host has nothing to present, so no
  transaction is issued (assumption log 6). Safe. -/
  | operandWithoutValue
deriving DecidableEq, Repr

/-- The three read-only tables (R21), each as its spec's table: rows by high hex digit, columns by low. -/
structure Roms where
  sbox : Vector (Vector Byte 16) 16
  invSbox : Vector (Vector Byte 16) 16
  rcon : Vector Byte 10
deriving DecidableEq, Repr

/-- The contents fixed at build time (R21). -/
def Roms.standard : Roms := ⟨sboxTable, invSboxTable, rconTable⟩

/-- The operand ports of R62. A port holds no value when the transaction's format does not name it. -/
structure InPorts where
  a : Option Bytes := none
  b : Option Bytes := none
  s : Option Bytes := none
  key : Option Bytes := none
  block : Option Bytes := none
  iv : Option Bytes := none
  msg : Option Bytes := none
deriving DecidableEq, Repr

/-- The result ports of R62: `y`, `s'`, `w` and `out`. A port the transaction did not write holds no value (R30, R283). -/
structure OutPorts where
  y : Option Byte := none
  sOut : Option Bytes := none
  w : Option (List Word) := none
  out : Option Bytes := none
deriving DecidableEq, Repr

/-- The transient datapath registers of R26. Each holds no value at the start of a transaction (R27) and is dead when the
transaction ends (R26); one step is one whole transaction (R51), so between two steps each of them holds none. -/
structure Datapath where
  s : Option StateMatrix := none
  w : Option (List Word) := none
  rnd : Option Nat := none
  t : Option Word := none
  p : Option Bytes := none
  f : Option Bytes := none
  j : Option (BitVec 64) := none
  q : Option Bytes := none
  acc : Option Bytes := none
deriving DecidableEq, Repr

/-- What the host keeps of a transaction under a name: its status, and its value where the status is OK (D23). -/
structure Response where
  status : Status
  value : Option Bytes
deriving DecidableEq, Repr

/-- The host's named buffers (R41): the map from result names to (status, value), names strictly rising. -/
abbrev Buffers := List (Nat × Response)

/-- The state of the block and of the host that drives it. -/
structure State where
  /-- `SBOX_ROM`, `INV_SBOX_ROM` and `RCON_ROM` (R21). -/
  roms : Roms
  /-- The op code of the transaction presented last (R60); none until the first. -/
  op : Option Byte
  /-- The operand ports (R62). -/
  inp : InPorts
  /-- The transient registers (R26). -/
  datapath : Datapath
  /-- The status port (R24, R280); no value until the first transaction completes (R30). -/
  status : Option Status
  /-- The result ports (R62); no value until the first transaction completes (R30). -/
  outp : OutPorts
  /-- What the host will do next, in its order (R22, D23). -/
  queue : List HostEvent
  /-- The results the host has stored (R41, D23). -/
  buffers : Buffers
deriving DecidableEq, Repr

/-- Right after reset (R30): the ROMs hold their fixed contents; ports and transient registers hold no value; no
transaction is in progress. The host has issued nothing and stored nothing (assumption log 4). -/
def State.reset : State where
  roms := Roms.standard
  op := none
  inp := {}
  datapath := {}
  status := none
  outp := {}
  queue := []
  buffers := []

/-- What a transaction answers. -/
abbrev Result := Host.Outcome State Fault Refusal

end Sys2Proof.Machine
end

