-- ==== Sys2Proof/Machine/Flags.lean ====
section
/-! DEFINITION. The status a transaction reports (60_exceptions.md): the codes of R280 and the checks that raise an error,
in the order of R286. The block has no flags (R24). -/

namespace Sys2Proof.Machine

/-- The 2-bit status of R280. -/
def Status.code (st : Status) : BitVec 2 :=
  match st with
  | .ok => 0
  | .err .invalidKeyLength => 1
  | .err .invalidBlockLength => 2
  | .err .emptyInput => 3

/-- The AES variants of R5. -/
inductive Variant where
  | aes128
  | aes192
  | aes256
deriving DecidableEq, Repr

/-- Lk, the key length in bytes (R5). -/
def Variant.keyBytes (v : Variant) : Nat :=
  match v with
  | .aes128 => 16
  | .aes192 => 24
  | .aes256 => 32

/-- N, the key length in columns (R5). -/
def Variant.keyColumns (v : Variant) : Nat :=
  match v with
  | .aes128 => 4
  | .aes192 => 6
  | .aes256 => 8

/-- Nr, the number of rounds (R5). -/
def Variant.rounds (v : Variant) : Nat :=
  match v with
  | .aes128 => 10
  | .aes192 => 12
  | .aes256 => 14

/-- Tw = 4*(Nr+1), the number of schedule columns (R5, R161). -/
def Variant.scheduleWords (v : Variant) : Nat := 4 * (v.rounds + 1)

/-- The variant the key's length selects, or `InvalidKeyLength` (R166, R193, R281). -/
def variantOf (key : Bytes) : Except Error Variant :=
  if key.length = 16 then .ok .aes128
  else if key.length = 24 then .ok .aes192
  else if key.length = 32 then .ok .aes256
  else .error .invalidKeyLength

/-- A 16-byte operand of another length raises `InvalidBlockLength` (R284). -/
def checkBlock (block : Bytes) : Except Error Unit :=
  if block.length = 16 then .ok () else .error .invalidBlockLength

/-- A message with no byte raises `EmptyInput` (R250, R285). -/
def checkNonEmpty (msg : Bytes) : Except Error Unit :=
  if msg.length = 0 then .error .emptyInput else .ok ()

/-- The message of ECB_DEC and CBC_DEC is a whole number of blocks, at least one (R224). -/
def checkWholeBlocks (msg : Bytes) : Except Error Unit :=
  if msg.length % 16 ≠ 0 then .error .invalidBlockLength else checkNonEmpty msg

/-- `a`, then `b`: the first error that applies is the one reported (R286). -/
def thenCheck {α β : Type} (a : Except Error α) (b : Except Error β) : Except Error α :=
  match a with
  | .error e => .error e
  | .ok x =>
    match b with
    | .error e => .error e
    | .ok _ => .ok x

/-- The checks of ENCRYPT_BLOCK and DECRYPT_BLOCK: key, then block (R195, R196). -/
def validateBlock (key block : Bytes) : Except Error Variant :=
  thenCheck (variantOf key) (checkBlock block)

/-- `ValidateMode` for an op without an IV: key, then message (R220). -/
def validateMode (key : Bytes) (msgCheck : Except Error Unit) : Except Error Variant :=
  thenCheck (variantOf key) msgCheck

/-- `ValidateMode` for an op with an IV: key, then IV, then message (R220). -/
def validateModeIv (key iv : Bytes) (msgCheck : Except Error Unit) : Except Error Variant :=
  thenCheck (thenCheck (variantOf key) (checkBlock iv)) msgCheck

end Sys2Proof.Machine
end

