-- ==== Sys2Proof/Decode.lean ====
section
/-! DEFINITION. The opcode map (30_encoding.md R60 to R64): the decoder, total and rejecting by name, and after it the
encoder, both written from the table of R63. -/

namespace Sys2Proof

/-- Why a byte sequence is no instruction. -/
inductive Reject where
  /-- There is no op byte to read. -/
  | noOpByte
  /-- The op code is not in the table of R63 (R64). -/
  | unassigned (op : Byte)
deriving DecidableEq, Repr

/-- A row of the opcode map: the op codes equal to `code` on the bits of `mask` (R63). -/
structure OpRow where
  code : Byte
  mask : Byte
  instr : Instr
deriving DecidableEq, Repr

/-- R63, units 0x0 and 0x1. -/
def opTableLow : List OpRow := [
  ⟨0x00, 0xFF, .sbox⟩,
  ⟨0x01, 0xFF, .invSbox⟩,
  ⟨0x02, 0xFF, .rcon⟩,
  ⟨0x03, 0xFF, .gfmul⟩,
  ⟨0x10, 0xFF, .subBytes⟩,
  ⟨0x11, 0xFF, .invSubBytes⟩,
  ⟨0x12, 0xFF, .shiftRows⟩,
  ⟨0x13, 0xFF, .invShiftRows⟩,
  ⟨0x14, 0xFF, .mixColumns⟩,
  ⟨0x15, 0xFF, .invMixColumns⟩]

/-- R63, units 0x2, 0x3 and 0x4. -/
def opTableHigh : List OpRow := [
  ⟨0x20, 0xFF, .ks128⟩,
  ⟨0x21, 0xFF, .ks192⟩,
  ⟨0x22, 0xFF, .ks256⟩,
  ⟨0x23, 0xFF, .expandKey⟩,
  ⟨0x30, 0xFF, .encryptBlock⟩,
  ⟨0x31, 0xFF, .decryptBlock⟩,
  ⟨0x40, 0xFF, .ecbEnc⟩,
  ⟨0x41, 0xFF, .ecbDec⟩,
  ⟨0x42, 0xFF, .cbcEnc⟩,
  ⟨0x43, 0xFF, .cbcDec⟩,
  ⟨0x44, 0xFF, .cfbEnc⟩,
  ⟨0x45, 0xFF, .cfbDec⟩,
  ⟨0x46, 0xFF, .ctrEnc⟩,
  ⟨0x47, 0xFF, .ctrDec⟩]

/-- The opcode map of R63. -/
def opTable : List OpRow := opTableLow ++ opTableHigh

/-- The operation an op code selects; none for the 232 unassigned codes (R63, R64). -/
def decodeOp (op : Byte) : Option Instr :=
  (opTable.find? fun row => (op &&& row.mask) == row.code).map (·.instr)

/-- A decoder reads exactly one byte (R60): the operation, and the bytes after it. -/
def decode (code : Bytes) : Except Reject (Instr × Bytes) :=
  match code with
  | [] => .error .noOpByte
  | op :: rest =>
    match decodeOp op with
    | some i => .ok (i, rest)
    | none => .error (.unassigned op)

/-- The op code of an operation (R63). -/
def opCode (i : Instr) : Byte :=
  match i with
  | .sbox => 0x00
  | .invSbox => 0x01
  | .rcon => 0x02
  | .gfmul => 0x03
  | .subBytes => 0x10
  | .invSubBytes => 0x11
  | .shiftRows => 0x12
  | .invShiftRows => 0x13
  | .mixColumns => 0x14
  | .invMixColumns => 0x15
  | .ks128 => 0x20
  | .ks192 => 0x21
  | .ks256 => 0x22
  | .expandKey => 0x23
  | .encryptBlock => 0x30
  | .decryptBlock => 0x31
  | .ecbEnc => 0x40
  | .ecbDec => 0x41
  | .cbcEnc => 0x42
  | .cbcDec => 0x43
  | .cfbEnc => 0x44
  | .cfbDec => 0x45
  | .ctrEnc => 0x46
  | .ctrDec => 0x47

/-- The encoding of an operation: its one op byte (R60). -/
def encode (i : Instr) : Bytes := [opCode i]

/-- `unit`, op[7:4] (R60). -/
def opUnit (op : Byte) : BitVec 4 := op.extractLsb' 4 4

/-- `func`, op[3:0] (R60). -/
def opFunc (op : Byte) : BitVec 4 := op.extractLsb' 0 4

/-- The port format of an operation (R63). -/
def Instr.format (i : Instr) : PortFormat :=
  match i with
  | .sbox | .invSbox | .rcon => .l8
  | .gfmul => .g8
  | .subBytes | .invSubBytes | .shiftRows | .invShiftRows | .mixColumns | .invMixColumns => .s128
  | .ks128 => .kf16
  | .ks192 => .kf24
  | .ks256 => .kf32
  | .expandKey => .kv
  | .encryptBlock | .decryptBlock => .bk
  | .ecbEnc | .ecbDec => .mk
  | .cbcEnc | .cbcDec | .cfbEnc | .cfbDec | .ctrEnc | .ctrDec => .mik

/-- The operand ports of a format, in the order R62 lists them, which is the order of a transaction's operands (R66). -/
def PortFormat.ports (f : PortFormat) : List (PortName × PortWidth) :=
  match f with
  | .l8 => [(.a, .fixed 1)]
  | .g8 => [(.a, .fixed 1), (.b, .fixed 1)]
  | .s128 => [(.s, .fixed 16)]
  | .kf16 => [(.key, .fixed 16)]
  | .kf24 => [(.key, .fixed 24)]
  | .kf32 => [(.key, .fixed 32)]
  | .kv => [(.key, .any)]
  | .bk => [(.block, .any), (.key, .any)]
  | .mk => [(.key, .any), (.msg, .any)]
  | .mik => [(.iv, .any), (.key, .any), (.msg, .any)]

/-! The assembler syntax of R66. No behaviour depends on it (D22). -/

/-- The mnemonic of an operation (R63). -/
def Instr.mnemonic (i : Instr) : String :=
  match i with
  | .sbox => "SBOX"
  | .invSbox => "INV_SBOX"
  | .rcon => "RCON"
  | .gfmul => "GFMUL"
  | .subBytes => "SUB_BYTES"
  | .invSubBytes => "INV_SUB_BYTES"
  | .shiftRows => "SHIFT_ROWS"
  | .invShiftRows => "INV_SHIFT_ROWS"
  | .mixColumns => "MIX_COLUMNS"
  | .invMixColumns => "INV_MIX_COLUMNS"
  | .ks128 => "KS128"
  | .ks192 => "KS192"
  | .ks256 => "KS256"
  | .expandKey => "EXPAND_KEY"
  | .encryptBlock => "ENCRYPT_BLOCK"
  | .decryptBlock => "DECRYPT_BLOCK"
  | .ecbEnc => "ECB_ENC"
  | .ecbDec => "ECB_DEC"
  | .cbcEnc => "CBC_ENC"
  | .cbcDec => "CBC_DEC"
  | .cfbEnc => "CFB_ENC"
  | .cfbDec => "CFB_DEC"
  | .ctrEnc => "CTR_ENC"
  | .ctrDec => "CTR_DEC"

/-- A byte as two hex digits (R10). -/
def hexByte (x : Byte) : String :=
  let digits := "0123456789ABCDEF".toList
  String.ofList [digits.getD (x.toNat / 16) '0', digits.getD (x.toNat % 16) '0']

/-- An operand as text: a host buffer's name, `#0x53` for a byte, or `#h'2B7E'` for a byte sequence (R66). -/
def sourceText (w : PortWidth) (src : Source) : String :=
  match src with
  | .buf name => "b" ++ toString name
  | .lit v => if w = .fixed 1 then "#0x" ++ String.join (v.map hexByte) else "#h'" ++ String.join (v.map hexByte) ++ "'"

/-- A transaction as its line `MNEMONIC dst, src1, src2, ...` (R66); none for an unassigned op code. -/
def asmLine (c : Command) : Option String :=
  (decodeOp c.op).map fun i =>
    i.mnemonic ++ " b" ++ toString c.dst ++
      String.join ((i.format.ports.zip c.srcs).map fun x => ", " ++ sourceText x.1.2 x.2)

/-- The bytes of an instruction whose bits are `w`, the first byte the least significant. -/
def tableBytes (nbytes w : Nat) : Bytes :=
  match nbytes with
  | 0 => []
  | n + 1 => BitVec.ofNat 8 w :: tableBytes n (w / 256)

/-- What the decoder reads from an instruction of `nbits` bits whose bits are `w`, numbered as spec/opcode_table.json
numbers them. An instruction is one op byte, so at least one byte is laid out. -/
def decodeTableWord (nbits w : Nat) : Option Instr :=
  match decode (tableBytes (max 1 (nbits / 8)) w) with
  | .ok (i, _) => some i
  | .error _ => none

end Sys2Proof
end

