-- ==== Sys2Proof/WellFormed.lean ====
section
/-! DEFINITION. When a transaction is well formed (R62, R288, D25): one operand for each operand port of the op's format,
and each fixed-width port given a value of its width. Lengths of `Bytes(*)` ports are not checked here: the operation
rules check them and report an error status. -/

namespace Sys2Proof

/-- Whether a value fits a port's width (R62). -/
def PortWidth.admits (w : PortWidth) (v : Bytes) : Bool :=
  match w with
  | .fixed n => v.length == n
  | .any => true

/-- Check 1: as many operands as the format has operand ports (R62). -/
def arityOk (i : Instr) (operands : List Bytes) : Bool :=
  operands.length == i.format.ports.length

/-- Check 2: every fixed-width port has a value of its width (R62). -/
def widthsOk (i : Instr) (operands : List Bytes) : Bool :=
  (i.format.ports.zip operands).all fun x => x.1.2.admits x.2

/-- A well-formed transaction: both checks hold. -/
def wellFormed (i : Instr) (operands : List Bytes) : Bool :=
  arityOk i operands && widthsOk i operands

end Sys2Proof
end

