-- ==== Sys2Proof/Machine/Operands.lean ====
section
/-! DEFINITION. Operand forms: byte sequences and their slices (R11), the State Matrix of a block (R130), the split of a
message into blocks (R49), and how a port is read (R62, R65). -/

namespace Sys2Proof.Machine

/-- `B[lo..hi]`, half open (R11). -/
def slice (B : Bytes) (lo hi : Nat) : Bytes := (B.drop lo).take (hi - lo)

/-- `MemRead(B, addr, n)` on a host buffer (R12, R41). -/
def memRead (B : Bytes) (addr n : Nat) : Bytes := slice B addr (addr + n)

/-- `A ^ B`, bytewise (R11). -/
def xorBytes (A B : Bytes) : Bytes := A.zipWith (· ^^^ ·) B

/-- `zeros(k)` (R11). -/
def zeros (k : Nat) : Bytes := List.replicate k 0x00

/-- A fixed-width port read as one number, byte 0 the most significant (R44). -/
def portNumber (B : Bytes) : Nat := B.foldl (fun n x => 256 * n + x.toNat) 0

/-- `toState(B)`: byte i is `S[i mod 4][i / 4]` (R130, R45). It is applied to 16-byte blocks only, so the default of
`getD` is never read. -/
def toState (B : Bytes) : StateMatrix := .ofFn fun r c => B.getD (4 * c.val + r.val) 0

/-- `fromState(S)`: byte 4c + r is `S[r][c]` (R130). -/
def fromState (S : StateMatrix) : Bytes := S.c0.toBytes ++ S.c1.toBytes ++ S.c2.toBytes ++ S.c3.toBytes

/-- The blocks of a sequence in order: block b is `M[16b .. min(16b+16, len(M))]` (R49). -/
def blocksOf (M : Bytes) : List Bytes :=
  (List.range ((M.length + 15) / 16)).map fun b => slice M (16 * b) (min (16 * b + 16) M.length)

/-- A key schedule flattened to bytes, `w[0] ++ w[1] ++ ...` (R62). -/
def flattenWords (w : List Word) : Bytes := w.flatMap Word.toBytes

/-- Put a value on an operand port. -/
def InPorts.set (p : InPorts) (n : PortName) (v : Bytes) : InPorts :=
  match n with
  | .a => { p with a := some v }
  | .b => { p with b := some v }
  | .s => { p with s := some v }
  | .key => { p with key := some v }
  | .block => { p with block := some v }
  | .iv => { p with iv := some v }
  | .msg => { p with msg := some v }

/-- The operand ports of a transaction: its values on the ports its format names, in port order, and no value on the
others (R62, R66). -/
def loadPorts (f : PortFormat) (operands : List Bytes) : InPorts :=
  (f.ports.zip operands).foldl (fun p x => p.set x.1.1 x.2) {}

/-- Read a `Bytes(1)` port as its byte (R65); a value of another width is refused (R62). -/
def onByte (port : Option Bytes) (k : Byte → Result) : Result :=
  match port with
  | some [x] => k x
  | _ => .refused .illFormedOperands

/-- Read a `Bytes(n)` port (R65); a value of another width is refused (R62). -/
def onFixed (n : Nat) (port : Option Bytes) (k : Bytes → Result) : Result :=
  match port with
  | some B => if B.length = n then k B else .refused .illFormedOperands
  | none => .refused .illFormedOperands

/-- Read a `Bytes(*)` port (R62). -/
def onPort (port : Option Bytes) (k : Bytes → Result) : Result :=
  match port with
  | some B => k B
  | none => .refused .illFormedOperands

/-- The value the result ports carry, as bytes: the one port the transaction wrote (R62). -/
def OutPorts.value (o : OutPorts) : Option Bytes :=
  match o.y, o.sOut, o.w, o.out with
  | some y, _, _, _ => some [y]
  | none, some B, _, _ => some B
  | none, none, some w, _ => some (flattenWords w)
  | none, none, none, out => out

end Sys2Proof.Machine
end

