-- ==== Sys2Proof/Machine/Ops.lean ====
section
/-! DEFINITION. The shared operations over the state: how a transaction begins, how it ends (with results, or with an error
status, which is all the exception handling this block has: R283, R289), reset, the host's buffers, and the fetch of the
host's next transaction. -/

namespace Sys2Proof.Machine

/-- The end of a transaction: its status and result ports are written all at once, and the transient registers are dead
(R26, R51). Result ports are fresh: one the transaction did not write holds no value (R283, R314; assumption log 5). -/
def State.respond (s : State) (st : Status) (o : OutPorts) : State :=
  { s with status := some st, outp := o, datapath := {} }

/-- `status <- OK` with the results (R12). -/
def complete (o : OutPorts) (s : State) : Result := .next (s.respond .ok o)

/-- `raise <Error>` (R12): the transaction ends with that status and writes no result port, no state changes, and the block
is ready for the next transaction at once (R283). There is no handler and no return (R289). -/
def raise (e : Error) (s : State) : Result := .next (s.respond (.err e) {})

/-- Go on with what the checks found, or raise the error they report (R220). -/
def whenValid {α : Type} (check : Except Error α) (s : State) (k : α → Result) : Result :=
  match check with
  | .ok x => k x
  | .error e => raise e s

/-- The state with another value on one operand port. -/
def State.withPort (s : State) (n : PortName) (v : Bytes) : State := { s with inp := s.inp.set n v }

/-- The start of a transaction (R60, R313): the op code and the operand ports are presented, read as one value; no
transient register, no status and no result port holds a value (R27, R30). -/
def State.issue (s : State) (i : Instr) (operands : List Bytes) : State :=
  { s with op := some (opCode i), inp := loadPorts i.format operands, datapath := {}, status := none, outp := {} }

/-- Reset asserted (R30, R310): the ROMs keep their contents, nothing else persists, and a transaction in progress is
abandoned with no status and no result. The host's own queue and buffers are not the block's and stay. -/
def State.assertReset (s : State) : State :=
  { s with op := none, inp := {}, datapath := {}, status := none, outp := {} }

/-- What the host stored under a name. -/
def bufferGet (b : Buffers) (name : Nat) : Option Response :=
  match b with
  | [] => none
  | (n, r) :: rest => if n = name then some r else bufferGet rest name

/-- Store under a name, in place of what it held; names stay strictly rising. The spec does not speak of a name that is used
again: that the newer response replaces the older one whole, an error too, so that the older value is gone, is the model's
choice (DESIGN CHOICE, assumption log 21). -/
def bufferPut (b : Buffers) (name : Nat) (r : Response) : Buffers :=
  match b with
  | [] => [(name, r)]
  | (n, q) :: rest =>
    if name < n then (name, r) :: (n, q) :: rest
    else if name = n then (name, r) :: rest
    else (n, q) :: bufferPut rest name r

/-- The canonical form of the host's buffers: names strictly rising, so equal maps are equal lists. -/
abbrev Buffers.wf (b : Buffers) : Prop := b.Pairwise fun x y => x.1 < y.1

/-- The value of an operand (R66): the literal, or the value stored under the name. -/
def resolve (b : Buffers) (src : Source) : Option Bytes :=
  match src with
  | .lit v => some v
  | .buf name => (bufferGet b name).bind (·.value)

/-- The values of all operands, in port order. -/
def resolveAll (b : Buffers) (srcs : List Source) : Option (List Bytes) :=
  match srcs with
  | [] => some []
  | src :: rest => (resolve b src).bind fun v => (resolveAll b rest).map (v :: ·)

/-- The response of the transaction that has just ended, as the host stores it; none while there is no status. -/
def State.response (s : State) : Option Response := s.status.map fun st => ⟨st, s.outp.value⟩

/-- The host stores a response under a name (R41). -/
def State.store (s : State) (name : Nat) (r : Response) : State := { s with buffers := bufferPut s.buffers name r }

/-- The state with the rest of the host's queue. -/
def State.withQueue (s : State) (rest : List HostEvent) : State := { s with queue := rest }

/-- The host stores the response under the name of its choosing (R41), an error's too, in place of what the name held
(assumption log 21). A fault or a refusal leaves nothing to store. -/
def collect (dst : Nat) (r : Result) : Result :=
  match r with
  | .next s =>
    match s.response with
    | some resp => .next (s.store dst resp)
    | none => .next s
  | .fault f => .fault f
  | .refused f => .refused f

/-- What the fetch finds. -/
inductive Fetched where
  /-- The host has nothing more to do. -/
  | idle
  /-- The host asserted reset; the state after it. -/
  | reset (s : State)
  /-- A transaction the model does not execute (R288). -/
  | refuse (r : Refusal)
  /-- Operation `i` is to run in state `s`, its response to be stored under `dst`. -/
  | run (dst : Nat) (i : Instr) (s : State)
deriving DecidableEq, Repr

/-- Present a transaction of the host's to the block (R60, R62): decode its op code, take its operands' values, and refuse
what R288 refuses. -/
def present (c : Command) (s : State) : Fetched :=
  match decode [c.op] with
  | .error _ => .refuse (.unassignedOp c.op)
  | .ok (i, _) =>
    match resolveAll s.buffers c.srcs with
    | none => .refuse .operandWithoutValue
    | some operands =>
      if wellFormed i operands then .run c.dst i (s.issue i operands) else .refuse .illFormedOperands

/-- The host's next event (R22, D23). The block fetches no instructions of its own. -/
def fetch (s : State) : Fetched :=
  match s.queue with
  | [] => .idle
  | .reset _ :: rest => .reset (s.withQueue rest).assertReset
  | .issue c :: rest => present c (s.withQueue rest)

/-- Operand values that fit a format, for a transaction about which only the op code is said: zero bytes, and for the `L8`
port the byte 0x01, since RCON has no index 0 (R106; assumption log 4). -/
def plainOperands (f : PortFormat) : List Bytes :=
  match f with
  | .l8 => [[0x01]]
  | .g8 => [zeros 1, zeros 1]
  | .s128 => [zeros 16]
  | .kf16 => [zeros 16]
  | .kf24 => [zeros 24]
  | .kf32 => [zeros 32]
  | .kv => [zeros 16]
  | .bk => [zeros 16, zeros 16]
  | .mk => [zeros 16, zeros 16]
  | .mik => [zeros 16, zeros 16, zeros 16]

/-- The transaction of an op code with those operands, none where the op code is unassigned, its result stored under 0. -/
def plainCommand (op : Byte) : Command :=
  ⟨op, 0, match decodeOp op with
    | some i => (plainOperands i.format).map .lit
    | none => []⟩

/-- The next state of an outcome, if it is one. -/
def next? (r : Result) : Option State :=
  match r with
  | .next s => some s
  | .fault _ => none
  | .refused _ => none

/-- The fault of an outcome, if it is one. -/
def fault? (r : Result) : Option Fault :=
  match r with
  | .fault f => some f
  | .next _ => none
  | .refused _ => none

/-- The refusal of an outcome, if it is one. -/
def refusal? (r : Result) : Option Refusal :=
  match r with
  | .refused f => some f
  | .next _ => none
  | .fault _ => none

end Sys2Proof.Machine
end

