-- ==== Sys2Proof/Machine/Field.lean ====
section
/-! DEFINITION. Field primitives (40_field_primitives.md): GF(2^8) arithmetic and the ROM look-ups, and the meanings of
SBOX, INV_SBOX, RCON and GFMUL. -/

namespace Sys2Proof.Machine

/-- `xtime(a)`: multiplication by x, reduced by 0x1B (R108). -/
def xtime (a : Byte) : Byte := (a <<< 1) ^^^ (if a.getLsbD 7 then 0x1B else 0x00)

/-- R109. -/
def mul2 (a : Byte) : Byte := xtime a

/-- R109. -/
def mul3 (a : Byte) : Byte := xtime a ^^^ a

/-- R109. -/
def mul9 (a : Byte) : Byte := xtime (xtime (xtime a)) ^^^ a

/-- R109. -/
def mul11 (a : Byte) : Byte := xtime (xtime (xtime a)) ^^^ xtime a ^^^ a

/-- R109. -/
def mul13 (a : Byte) : Byte := xtime (xtime (xtime a)) ^^^ xtime (xtime a) ^^^ a

/-- R109. -/
def mul14 (a : Byte) : Byte := xtime (xtime (xtime a)) ^^^ xtime (xtime a) ^^^ xtime a

/-- One step of R110's loop, on `(r, p)` for bit i of b. -/
def gmulStep (b : Byte) (rp : Byte × Byte) (i : Nat) : Byte × Byte :=
  (if b.getLsbD i then rp.1 ^^^ rp.2 else rp.1, xtime rp.2)

/-- `gmul(a, b)`: the field product by repeated doubling (R110). -/
def gmul (a b : Byte) : Byte := ((List.range 8).foldl (gmulStep b) (0x00, a)).1

/-- A 256-entry table at index `a`: row `a / 16`, column `a mod 16` (R100, R102). -/
def tableAt (t : Vector (Vector Byte 16) 16) (a : Byte) : Byte :=
  (t[a.toNat / 16]'(by have := a.isLt; omega))[a.toNat % 16]'(by omega)

/-- `SBOX_ROM[a]` (R21, R100). -/
def Roms.sboxAt (m : Roms) (a : Byte) : Byte := tableAt m.sbox a

/-- `INV_SBOX_ROM[a]` (R21, R102). -/
def Roms.invSboxAt (m : Roms) (a : Byte) : Byte := tableAt m.invSbox a

/-- `RCON_ROM[i]`, which has exactly the indices 1..10 (R105, R106). -/
def Roms.rconAt (m : Roms) (i : Nat) : Option Byte :=
  if h : 1 ≤ i ∧ i ≤ 10 then some (m.rcon[i - 1]'(by omega)) else none

/-- SBOX (R101). -/
def execSbox (s : State) : Result :=
  onByte s.inp.a fun a => complete { y := some (s.roms.sboxAt a) } s

/-- INV_SBOX (R103). -/
def execInvSbox (s : State) : Result :=
  onByte s.inp.a fun a => complete { y := some (s.roms.invSboxAt a) } s

/-- RCON (R106): an index outside 1..10 is the model fault `RconIndexOutOfDomain` (R287, D12). -/
def execRcon (s : State) : Result :=
  onByte s.inp.a fun a =>
    match s.roms.rconAt a.toNat with
    | some y => complete { y := some y } s
    | none => .fault .rconIndexOutOfDomain

/-- GFMUL (R111): any two bytes. -/
def execGfmul (s : State) : Result :=
  onByte s.inp.a fun a => onByte s.inp.b fun b => complete { y := some (gmul a b) } s

end Sys2Proof.Machine
end

