-- ==== Sys2Proof/Machine/KeySchedule.lean ====
section
/-! DEFINITION. The key schedule (42_key_schedule.md) and the meanings of KS128, KS192, KS256 and EXPAND_KEY. -/

namespace Sys2Proof.Machine

/-- `RotWord(t)` (R162). -/
def rotWord (t : Word) : Word := ⟨t.b1, t.b2, t.b3, t.b0⟩

/-- `SubWord(t)` (R162). -/
def subWord (m : Roms) (t : Word) : Word := ⟨m.sboxAt t.b0, m.sboxAt t.b1, m.sboxAt t.b2, m.sboxAt t.b3⟩

/-- `RconWord(i)`: the round constant in the first byte only (R162, C3). The schedule reads indices 1..10 only (R161), so
the default of `getD` is never read. -/
def rconWord (m : Roms) (i : Nat) : Word := ⟨(m.rconAt i).getD 0, 0, 0, 0⟩

/-- `W[i]` of a schedule. Every index an operation reads has been written (R27), so the default is never read. -/
def wordAt (W : List Word) (i : Nat) : Word := W.getD i Word.zero

/-- `T` for column i, from the columns before it (R161). -/
def expandTemp (m : Roms) (n : Nat) (W : List Word) (i : Nat) : Word :=
  if i % n = 0 then (subWord m (rotWord (wordAt W (i - 1)))).xor (rconWord m (i / n))
  else if n = 8 ∧ i % n = 4 then subWord m (wordAt W (i - 1))
  else wordAt W (i - 1)

/-- `W[i] <- W[i-N] ^ T` (R161). -/
def expandStep (m : Roms) (n : Nat) (W : List Word) (i : Nat) : List Word :=
  W ++ [(wordAt W (i - n)).xor (expandTemp m n W i)]

/-- The first N columns are the key, byte order preserved: `W[j][k] = K[4j+k]` (R160, R46). -/
def seedColumns (n : Nat) (key : Bytes) : List Word :=
  (List.range n).map fun j => .ofFn fun k => key.getD (4 * j + k.val) 0

/-- The key schedule: seeding, then expansion for i from N up to Tw - 1 (R160, R161). -/
def keySchedule (m : Roms) (v : Variant) (key : Bytes) : List Word :=
  (List.range' v.keyColumns (v.scheduleWords - v.keyColumns)).foldl (expandStep m v.keyColumns)
    (seedColumns v.keyColumns key)

/-- The shape of the three fixed-width variants (R163 to R165). -/
def scheduleOf (v : Variant) (s : State) : Result :=
  onFixed v.keyBytes s.inp.key fun key => complete { w := some (keySchedule s.roms v key) } s

/-- KS128 (R163). -/
def execKs128 (s : State) : Result := scheduleOf .aes128 s

/-- KS192 (R164). -/
def execKs192 (s : State) : Result := scheduleOf .aes192 s

/-- KS256 (R165). -/
def execKs256 (s : State) : Result := scheduleOf .aes256 s

/-- EXPAND_KEY, the validated dispatcher (R166). -/
def execExpandKey (s : State) : Result :=
  onPort s.inp.key fun key =>
    whenValid (variantOf key) s fun v => complete { w := some (keySchedule s.roms v key) } s

end Sys2Proof.Machine
end

