-- ==== Sys2Proof/Machine/Layers.lean ====
section
/-! DEFINITION. State transforms (41_state_transforms.md) and the meanings of the six layer operations. Each transform is a
function of its whole input state (R131). -/

namespace Sys2Proof.Machine

/-- `SubBytes(S)` (R132). -/
def subBytes (m : Roms) (S : StateMatrix) : StateMatrix := .ofFn fun r c => m.sboxAt (S.get r c)

/-- `InvSubBytes(S)` (R132). -/
def invSubBytes (m : Roms) (S : StateMatrix) : StateMatrix := .ofFn fun r c => m.invSboxAt (S.get r c)

/-- `ShiftRows(S)`: `S'[r][c] = S[r][(c + r) mod 4]` (R135); addition of `Fin 4` is modulo 4. -/
def shiftRows (S : StateMatrix) : StateMatrix := .ofFn fun r c => S.get r (c + r)

/-- `InvShiftRows(S)`: `S'[r][c] = S[r][(c - r) mod 4]` (R136); subtraction of `Fin 4` is modulo 4. -/
def invShiftRows (S : StateMatrix) : StateMatrix := .ofFn fun r c => S.get r (c - r)

/-- One column of `MixColumns` (R140). -/
def mixColumn (a : Word) : Word where
  b0 := mul2 a.b0 ^^^ mul3 a.b1 ^^^ a.b2 ^^^ a.b3
  b1 := a.b0 ^^^ mul2 a.b1 ^^^ mul3 a.b2 ^^^ a.b3
  b2 := a.b0 ^^^ a.b1 ^^^ mul2 a.b2 ^^^ mul3 a.b3
  b3 := mul3 a.b0 ^^^ a.b1 ^^^ a.b2 ^^^ mul2 a.b3

/-- One column of `InvMixColumns` (R141). -/
def invMixColumn (a : Word) : Word where
  b0 := mul14 a.b0 ^^^ mul11 a.b1 ^^^ mul13 a.b2 ^^^ mul9 a.b3
  b1 := mul9 a.b0 ^^^ mul14 a.b1 ^^^ mul11 a.b2 ^^^ mul13 a.b3
  b2 := mul13 a.b0 ^^^ mul9 a.b1 ^^^ mul14 a.b2 ^^^ mul11 a.b3
  b3 := mul11 a.b0 ^^^ mul13 a.b1 ^^^ mul9 a.b2 ^^^ mul14 a.b3

/-- `MixColumns(S)`: the columns are independent (R140). -/
def mixColumns (S : StateMatrix) : StateMatrix := ⟨mixColumn S.c0, mixColumn S.c1, mixColumn S.c2, mixColumn S.c3⟩

/-- `InvMixColumns(S)` (R141). -/
def invMixColumns (S : StateMatrix) : StateMatrix :=
  ⟨invMixColumn S.c0, invMixColumn S.c1, invMixColumn S.c2, invMixColumn S.c3⟩

/-- The shape of the six layer operations: one transform of the 16 bytes on port `s` (R133 to R144). -/
def layer (f : StateMatrix → StateMatrix) (s : State) : Result :=
  onFixed 16 s.inp.s fun B => complete { sOut := some (fromState (f (toState B))) } s

/-- SUB_BYTES (R133). -/
def execSubBytes (s : State) : Result := layer (subBytes s.roms) s

/-- INV_SUB_BYTES (R134). -/
def execInvSubBytes (s : State) : Result := layer (invSubBytes s.roms) s

/-- SHIFT_ROWS (R137). -/
def execShiftRows (s : State) : Result := layer shiftRows s

/-- INV_SHIFT_ROWS (R138). -/
def execInvShiftRows (s : State) : Result := layer invShiftRows s

/-- MIX_COLUMNS (R143). -/
def execMixColumns (s : State) : Result := layer mixColumns s

/-- INV_MIX_COLUMNS (R144). -/
def execInvMixColumns (s : State) : Result := layer invMixColumns s

end Sys2Proof.Machine
end

