-- ==== Sys2Proof/Machine/Cipher.lean ====
section
/-! DEFINITION. The block cipher (43_block_cipher.md) and the meanings of ENCRYPT_BLOCK and DECRYPT_BLOCK. -/

namespace Sys2Proof.Machine

/-- `AddRoundKey(S, W, r)`: word 4r + c into column c (R190, R167). -/
def addRoundKey (W : List Word) (r : Nat) (S : StateMatrix) : StateMatrix :=
  .ofFn fun k c => S.get k c ^^^ (wordAt W (4 * r + c.val)).get k

/-- One of the rounds 1..Nr-1 of `Cipher` (R191). -/
def cipherRound (m : Roms) (W : List Word) (S : StateMatrix) (rnd : Nat) : StateMatrix :=
  addRoundKey W rnd (mixColumns (shiftRows (subBytes m S)))

/-- One of the rounds Nr-1 downto 1 of `InvCipher`: the round key goes in before the column un-mixing (R192). -/
def invCipherRound (m : Roms) (W : List Word) (S : StateMatrix) (rnd : Nat) : StateMatrix :=
  invMixColumns (addRoundKey W rnd (invSubBytes m (invShiftRows S)))

/-- `Cipher` on the State Matrix: the final round has no MixColumns (R191). -/
def cipher (m : Roms) (W : List Word) (nr : Nat) (S : StateMatrix) : StateMatrix :=
  let S1 := addRoundKey W 0 S
  let S2 := (List.range' 1 (nr - 1)).foldl (cipherRound m W) S1
  addRoundKey W nr (shiftRows (subBytes m S2))

/-- `InvCipher` on the State Matrix, with the same schedule in reverse round order (R192). -/
def invCipher (m : Roms) (W : List Word) (nr : Nat) (S : StateMatrix) : StateMatrix :=
  let S1 := addRoundKey W nr S
  let S2 := (List.range' 1 (nr - 1)).reverse.foldl (invCipherRound m W) S1
  addRoundKey W 0 (invSubBytes m (invShiftRows S2))

/-- `E(X) = Cipher(X, W, Nr)` under a key of variant v, whose schedule is derived once (R28, R191). -/
def encryptWith (m : Roms) (v : Variant) (key : Bytes) (X : Bytes) : Bytes :=
  fromState (cipher m (keySchedule m v key) v.rounds (toState X))

/-- `D(X) = InvCipher(X, W, Nr)` (R192). -/
def decryptWith (m : Roms) (v : Variant) (key : Bytes) (X : Bytes) : Bytes :=
  fromState (invCipher m (keySchedule m v key) v.rounds (toState X))

/-- The shape of the two block operations: the key is checked first, then the block (R195, R196, R286). -/
def blockOp (f : Variant → Bytes → Bytes → Bytes) (s : State) : Result :=
  onPort s.inp.block fun block => onPort s.inp.key fun key =>
    whenValid (validateBlock key block) s fun v => complete { out := some (f v key block) } s

/-- ENCRYPT_BLOCK (R195). -/
def execEncryptBlock (s : State) : Result := blockOp (encryptWith s.roms) s

/-- DECRYPT_BLOCK (R196). -/
def execDecryptBlock (s : State) : Result := blockOp (decryptWith s.roms) s

end Sys2Proof.Machine
end

