-- ==== Sys2Proof/Config.lean ====
section
/-! DEFINITION. What one implementation fixes and the source leaves open. -/

namespace Sys2Proof

/-- `HEX_ENCODE_COUNTER : UInt64 -> Bytes(8)` (R8, D14: OPEN): a pure function whose bytes the source does not give.
It has no body, so no proof can see its bytes and a claim holds for every choice (assumption log 1). -/
opaque Config.hexEncodeCounter : BitVec 64 → Vector Byte 8

end Sys2Proof
end

