-- ==== Sys2Proof/Machine/Modes.lean ====
section
/-! DEFINITION. Modes of operation (44_modes.md) and the meanings of the eight mode operations. `E` and `D` are the block
functions of the transaction's key. The chaining and counter state is made afresh from the IV in each transaction (R220,
D28); blocks and bytes are taken in the order of the rules (R55, R315). -/

namespace Sys2Proof.Machine

/-- `Pad(M)`: the marker 15 - r, then 15 - r zero bytes, for r = len(M) mod 16 (R222). -/
def pad (M : Bytes) : Bytes :=
  M ++ [BitVec.ofNat 8 (15 - M.length % 16)] ++ zeros (15 - M.length % 16)

/-- The trailing zero bytes that `Unpad` pops, counted without bound (R223, D11). -/
def unpadCount (P : Bytes) : Nat := (P.reverse.takeWhile (· == 0x00)).length

/-- What is left after the pops, last byte first (R223). -/
def unpadRest (P : Bytes) : Bytes := P.reverse.dropWhile (· == 0x00)

/-- `Unpad(P)`: the first byte that is not zero is discarded if its value is the count, and pushed back if not; the popped
zeros are not restored (R223). No such byte: none, the fault `UnpadUnderflow` (D10). -/
def unpad (P : Bytes) : Option Bytes :=
  match unpadRest P with
  | [] => none
  | b :: before => some (if b.toNat = unpadCount P then before.reverse else before.reverse ++ [b])

/-- ECB: each block on its own (R230, R231). -/
def ecbMap (f : Bytes → Bytes) (M : Bytes) : Bytes := (blocksOf M).flatMap f

/-- CBC encryption of the blocks in order; `P` is the previous ciphertext block, or the IV (R240). -/
def cbcEncrypt (E : Bytes → Bytes) (P : Bytes) (blocks : List Bytes) : Bytes :=
  match blocks with
  | [] => []
  | b :: rest =>
    let C := E (xorBytes b P)
    C ++ cbcEncrypt E C rest

/-- CBC decryption of the blocks in order (R241). -/
def cbcDecrypt (D : Bytes → Bytes) (P : Bytes) (blocks : List Bytes) : Bytes :=
  match blocks with
  | [] => []
  | C :: rest => xorBytes (D C) P ++ cbcDecrypt D C rest

/-- The keystream byte `E(F)[0]` (R251, C6). `E` gives 16 bytes, so the default is never read. -/
def keystreamByte (E : Bytes → Bytes) (F : Bytes) : Byte := (E F).getD 0 0

/-- The feedback register drops its first byte and takes the ciphertext byte (R251). -/
def shiftFeedback (F : Bytes) (c : Byte) : Bytes := F.drop 1 ++ [c]

/-- CFB encryption of the bytes in order (R251). -/
def cfbEncrypt (E : Bytes → Bytes) (F : Bytes) (msg : Bytes) : Bytes :=
  match msg with
  | [] => []
  | x :: rest =>
    let c := keystreamByte E F ^^^ x
    c :: cfbEncrypt E (shiftFeedback F c) rest

/-- CFB decryption: the forward cipher, and the ciphertext's own bytes in the feedback (R252). -/
def cfbDecrypt (E : Bytes → Bytes) (F : Bytes) (msg : Bytes) : Bytes :=
  match msg with
  | [] => []
  | c :: rest => (keystreamByte E F ^^^ c) :: cfbDecrypt E (shiftFeedback F c) rest

/-- The default of `HEX_ENCODE_COUNTER`, used only where a vector of 95_test_vectors.md is read under it: byte k is
`(n >> (8*(7-k))) & 0xFF` (R8). -/
def hexEncodeDefault (n : BitVec 64) : Vector Byte 8 :=
  Vector.ofFn fun k => (n >>> (8 * (7 - k.val))).setWidth 8

/-- `Q(j) = In.iv[0..8] ++ HEX_ENCODE_COUNTER(j)` (R260), for a counter encoding `hex` (R8). -/
def counterBlock (hex : BitVec 64 → Vector Byte 8) (iv : Bytes) (j : BitVec 64) : Bytes :=
  slice iv 0 8 ++ (hex j).toList

/-- CTR over the blocks in order, from block index j; a last block of fewer bytes uses the first bytes of its keystream
block (R261). -/
def ctrBlocks (E : Bytes → Bytes) (Q : BitVec 64 → Bytes) (j : BitVec 64) (blocks : List Bytes) : Bytes :=
  match blocks with
  | [] => []
  | m :: rest => xorBytes m ((E (Q j)).take m.length) ++ ctrBlocks E Q (j + 1) rest

/-- CTR of a message from block index 0 (R7, R261). -/
def ctrCrypt (E : Bytes → Bytes) (hex : BitVec 64 → Vector Byte 8) (iv msg : Bytes) : Bytes :=
  ctrBlocks E (counterBlock hex iv) 0 (blocksOf msg)

/-- A CTR message of more than 2^64 blocks (R7, R260). -/
def ctrTooLong (msg : Bytes) : Bool := decide (2 ^ 64 < (msg.length + 15) / 16)

/-- The end of ECB_DEC and CBC_DEC: strip the padding, or fault where every byte is zero (R223, R231, R241, R287). -/
def finishUnpadded (P : Bytes) (s : State) : Result :=
  match unpad P with
  | some M => complete { out := some M } s
  | none => .fault .unpadUnderflow

/-- ECB_ENC (R230). -/
def execEcbEnc (s : State) : Result :=
  onPort s.inp.key fun key => onPort s.inp.msg fun msg =>
    whenValid (validateMode key (.ok ())) s fun v =>
      complete { out := some (ecbMap (encryptWith s.roms v key) (pad msg)) } s

/-- ECB_DEC (R231). -/
def execEcbDec (s : State) : Result :=
  onPort s.inp.key fun key => onPort s.inp.msg fun msg =>
    whenValid (validateMode key (checkWholeBlocks msg)) s fun v =>
      finishUnpadded (ecbMap (decryptWith s.roms v key) msg) s

/-- CBC_ENC (R240). -/
def execCbcEnc (s : State) : Result :=
  onPort s.inp.iv fun iv => onPort s.inp.key fun key => onPort s.inp.msg fun msg =>
    whenValid (validateModeIv key iv (.ok ())) s fun v =>
      complete { out := some (cbcEncrypt (encryptWith s.roms v key) iv (blocksOf (pad msg))) } s

/-- CBC_DEC (R241). -/
def execCbcDec (s : State) : Result :=
  onPort s.inp.iv fun iv => onPort s.inp.key fun key => onPort s.inp.msg fun msg =>
    whenValid (validateModeIv key iv (checkWholeBlocks msg)) s fun v =>
      finishUnpadded (cbcDecrypt (decryptWith s.roms v key) iv (blocksOf msg)) s

/-- CFB_ENC (R251). -/
def execCfbEnc (s : State) : Result :=
  onPort s.inp.iv fun iv => onPort s.inp.key fun key => onPort s.inp.msg fun msg =>
    whenValid (validateModeIv key iv (checkNonEmpty msg)) s fun v =>
      complete { out := some (cfbEncrypt (encryptWith s.roms v key) iv msg) } s

/-- CFB_DEC (R252). -/
def execCfbDec (s : State) : Result :=
  onPort s.inp.iv fun iv => onPort s.inp.key fun key => onPort s.inp.msg fun msg =>
    whenValid (validateModeIv key iv (checkNonEmpty msg)) s fun v =>
      complete { out := some (cfbDecrypt (encryptWith s.roms v key) iv msg) } s

/-- The shape of CTR_ENC and CTR_DEC, identical in structure (R261, R262). A message of more than 2^64 blocks is not
executed at all, so it is refused before any check (R288; assumption log 8). -/
def ctrOp (hex : BitVec 64 → Vector Byte 8) (s : State) : Result :=
  onPort s.inp.iv fun iv => onPort s.inp.key fun key => onPort s.inp.msg fun msg =>
    if ctrTooLong msg then .refused .ctrMessageTooLong
    else
      whenValid (validateModeIv key iv (checkNonEmpty msg)) s fun v =>
        complete { out := some (ctrCrypt (encryptWith s.roms v key) hex iv msg) } s

/-- CTR_ENC (R261). -/
def execCtrEnc (s : State) : Result := ctrOp Config.hexEncodeCounter s

/-- CTR_DEC (R262). -/
def execCtrDec (s : State) : Result := ctrOp Config.hexEncodeCounter s

end Sys2Proof.Machine
end

