-- ==== Sys2Proof/Machine/Step.lean ====
section
/-! DEFINITION. One step: the host's next event. A transaction runs whole in one step (R51). -/

namespace Sys2Proof.Machine

/-- One step: run the transaction the host issues next and hand its response to the host, or take the host's reset; with
nothing queued the block waits (assumption log 4). -/
def step (s : State) : Host.Outcome State Fault Refusal :=
  match fetch s with
  | .idle => .next s
  | .reset t => .next t
  | .refuse r => .refused r
  | .run dst i t => collect dst (exec i t)

/-- The state in which the host issues next the transaction whose op code is the low byte of `w`, with operands that fit its
format (`plainOperands`). No operand is part of the instruction word (R60), so `nbits` is not needed. -/
def State.withFetchWord (s : State) (_nbits w : Nat) : State :=
  s.withQueue (.issue (plainCommand (BitVec.ofNat 8 w)) :: s.queue)

end Sys2Proof.Machine
end

