-- ==== Sys2Proof/Safety.lean ====
section
/-! DEFINITION. The terms claims are made in: the invariant of the machine, a safe run and its end, and the spec's own tables
that a claim compares the model with. -/

namespace Sys2Proof.Machine

/-! Safe runs. -/

/-- A run: steps that each answer a next state. -/
inductive Runs : State → State → Prop where
  | here (s : State) : Runs s s
  | more {s t u : State} (h : step s = .next t) (r : Runs t u) : Runs s u

/-- A successful end: every event of the host's has been taken, with no fault and no refusal on the way (D23, R287). -/
def SuccessfulEnd (s t : State) : Prop := Runs s t ∧ t.queue = []

/-! The invariant. -/

/-- The result ports of a format hold a result of the format's shape, and no other port holds a value (R62, R168). -/
def OutPorts.fits (o : OutPorts) (f : PortFormat) : Prop :=
  match f with
  | .l8 | .g8 => ∃ y, o = { y := some y }
  | .s128 => ∃ B : Bytes, B.length = 16 ∧ o = { sOut := some B }
  | .kf16 => ∃ w : List Word, w.length = 44 ∧ o = { w := some w }
  | .kf24 => ∃ w : List Word, w.length = 52 ∧ o = { w := some w }
  | .kf32 => ∃ w : List Word, w.length = 60 ∧ o = { w := some w }
  | .kv => ∃ w : List Word, (w.length = 44 ∨ w.length = 52 ∨ w.length = 60) ∧ o = { w := some w }
  | .bk => ∃ B : Bytes, B.length = 16 ∧ o = { out := some B }
  | .mk | .mik => ∃ B : Bytes, o = { out := some B }

/-- What holds of the status and result ports between transactions: no value before the first answer (R30), no result
beside an error (R283), and beside OK a result that fits the format of the transaction's op (R62). -/
def PortsAgree (s : State) : Prop :=
  match s.status with
  | none => s.outp = {}
  | some (.err _) => s.outp = {}
  | some .ok => ∃ i, s.op = some (opCode i) ∧ s.outp.fits i.format

/-- The invariant of the machine between transactions. -/
structure State.Inv (s : State) : Prop where
  /-- The ROMs hold their fixed contents (R21). -/
  roms : s.roms = Roms.standard
  /-- The transient registers hold no value (R26, R27). -/
  datapath : s.datapath = {}
  /-- Status and result ports agree (R30, R62, R283). -/
  ports : PortsAgree s
  /-- The host's buffers are in canonical form. -/
  buffers : Buffers.wf s.buffers
  /-- A stored response has a value exactly where its status is OK (D23, R283; a reused name: assumption log 21). -/
  stored : ∀ x ∈ s.buffers, x.2.value.isSome = true ↔ x.2.status = .ok

/-! Answers. -/

/-- Two outcomes that the host cannot tell apart: the same status and results, the same fault, or the same refusal. -/
def sameAnswer (r q : Result) : Prop :=
  match r, q with
  | .next s, .next t => s.status = t.status ∧ s.outp = t.outp
  | .fault f, .fault g => f = g
  | .refused f, .refused g => f = g
  | _, _ => False

/-- The statuses an op can report (R282). -/
def reportable (i : Instr) : List Status :=
  match i with
  | .sbox | .invSbox | .rcon | .gfmul => [.ok]
  | .subBytes | .invSubBytes | .shiftRows | .invShiftRows | .mixColumns | .invMixColumns => [.ok]
  | .ks128 | .ks192 | .ks256 => [.ok]
  | .expandKey => [.ok, .err .invalidKeyLength]
  | .encryptBlock | .decryptBlock => [.ok, .err .invalidKeyLength, .err .invalidBlockLength]
  | .ecbEnc => [.ok, .err .invalidKeyLength]
  | .ecbDec => [.ok, .err .invalidKeyLength, .err .invalidBlockLength, .err .emptyInput]
  | .cbcEnc => [.ok, .err .invalidKeyLength, .err .invalidBlockLength]
  | .cbcDec => [.ok, .err .invalidKeyLength, .err .invalidBlockLength, .err .emptyInput]
  | .cfbEnc | .cfbDec | .ctrEnc | .ctrDec => [.ok, .err .invalidKeyLength, .err .invalidBlockLength, .err .emptyInput]

/-- The op codes R64 lists as unassigned. -/
def unassignedOp (op : Byte) : Prop :=
  (0x04 ≤ op.toNat ∧ op.toNat ≤ 0x0F) ∨ (0x16 ≤ op.toNat ∧ op.toNat ≤ 0x1F) ∨ (0x24 ≤ op.toNat ∧ op.toNat ≤ 0x2F) ∨
    (0x32 ≤ op.toNat ∧ op.toNat ≤ 0x3F) ∨ 0x48 ≤ op.toNat

/-- A key of 16, 24 or 32 bytes (R5). -/
def validKey (key : Bytes) : Prop := key.length = 16 ∨ key.length = 24 ∨ key.length = 32

/-! The field, from its definition in R107 rather than by repeated doubling. -/

/-- The product of two polynomials over GF(2), bit i the coefficient of x^i. -/
def polyMul (a b : Nat) : Nat := (List.range 8).foldl (fun r i => if b.testBit i then r ^^^ (a <<< i) else r) 0

/-- A polynomial of degree at most 14 reduced modulo m(x) = 0x11B (R107). -/
def polyReduce (p : Nat) : Nat :=
  [14, 13, 12, 11, 10, 9, 8].foldl (fun r i => if r.testBit i then r ^^^ (0x11B <<< (i - 8)) else r) p

/-- `rotl8(b, k)` (R104). -/
def rotl8 (b : Byte) (k : Nat) : Byte := (b <<< k) ||| (b >>> (8 - k))

/-! The spec's tables. -/

/-- `ShiftIdx` (R135): output byte i of ShiftRows is input byte `ShiftIdx[i]`. -/
def shiftIdx : List Nat := [0, 5, 10, 15, 4, 9, 14, 3, 8, 13, 2, 7, 12, 1, 6, 11]

/-- `InvShiftIdx` (R136). -/
def invShiftIdx : List Nat := [0, 13, 10, 7, 4, 1, 14, 11, 8, 5, 2, 15, 12, 9, 6, 3]

/-- The MDS matrix M (R139), by rows. -/
def mdsRows : List (List Byte) := [[0x02, 0x03, 0x01, 0x01], [0x01, 0x02, 0x03, 0x01], [0x01, 0x01, 0x02, 0x03],
  [0x03, 0x01, 0x01, 0x02]]

/-- Its inverse (R139), by rows. -/
def invMdsRows : List (List Byte) := [[0x0E, 0x0B, 0x0D, 0x09], [0x09, 0x0E, 0x0B, 0x0D], [0x0D, 0x09, 0x0E, 0x0B],
  [0x0B, 0x0D, 0x09, 0x0E]]

/-- Row `r` of a matrix times a column of four bytes, over GF(2^8). -/
def rowTimes (M : List (List Byte)) (r : Nat) (column : Bytes) : Byte :=
  (((M.getD r []).zipWith gmul column).foldl (· ^^^ ·) 0)

/-! The cipher's rounds by recursion on the round, R191 and R192 read as pseudocode. -/

/-- The state after the initial addition and rounds 1 to n of `Cipher` (R191). -/
def stateAfterRounds (m : Roms) (W : List Word) (S : StateMatrix) (n : Nat) : StateMatrix :=
  match n with
  | 0 => addRoundKey W 0 S
  | n + 1 => addRoundKey W (n + 1) (mixColumns (shiftRows (subBytes m (stateAfterRounds m W S n))))

/-- Rounds n downto 1 of `InvCipher` from a state (R192). -/
def undoRounds (m : Roms) (W : List Word) (n : Nat) (S : StateMatrix) : StateMatrix :=
  match n with
  | 0 => S
  | n + 1 => undoRounds m W n (invMixColumns (addRoundKey W (n + 1) (invSubBytes m (invShiftRows S))))

/-- When padding is reversible: R225 (c). -/
def padReversible (M : Bytes) : Prop := M.length % 16 = 15 → ∀ x, M.getLast? = some x → x ≠ 0x00 ∧ x ≠ 0x01

end Sys2Proof.Machine
end

