-- ==== Sys2Proof/Certificates/Slice0/Obligations.lean ====
section
/-! DEFINITION. The statements for the provers. The comments name the rules of spec/. Wherever a statement gives the state an
operation answers as `respond` of a status and some result ports, that the other result ports hold no value is the model's
reading of the spec, assumption log 5. -/

open Sys2Proof Sys2Proof.Machine

/-! ## Encoding, ports, the step -/

/-- R63: every row of the opcode map, its op code, its operation and its format (the codes are the spec's decision D3). -/
def Obligations.OpcodeMapIsTheTable : Prop :=
  ∀ row ∈ ([(0x00, .sbox, .l8), (0x01, .invSbox, .l8), (0x02, .rcon, .l8), (0x03, .gfmul, .g8),
      (0x10, .subBytes, .s128), (0x11, .invSubBytes, .s128), (0x12, .shiftRows, .s128), (0x13, .invShiftRows, .s128),
      (0x14, .mixColumns, .s128), (0x15, .invMixColumns, .s128),
      (0x20, .ks128, .kf16), (0x21, .ks192, .kf24), (0x22, .ks256, .kf32), (0x23, .expandKey, .kv),
      (0x30, .encryptBlock, .bk), (0x31, .decryptBlock, .bk), (0x40, .ecbEnc, .mk), (0x41, .ecbDec, .mk),
      (0x42, .cbcEnc, .mik), (0x43, .cbcDec, .mik), (0x44, .cfbEnc, .mik), (0x45, .cfbDec, .mik),
      (0x46, .ctrEnc, .mik), (0x47, .ctrDec, .mik)] : List (Byte × Instr × PortFormat)),
    ∀ rest, decode (row.1 :: rest) = .ok (row.2.1, rest) ∧ row.2.1.format = row.2.2

/-- R60: an operation is one byte, decoding what was encoded gives it back, and nothing else decodes to it
(the one-byte code is the spec's decision D3). -/
def Obligations.DecodeAndEncodeAgree : Prop :=
  (∀ i rest, decode (encode i ++ rest) = .ok (i, rest)) ∧
    ∀ code i rest, decode code = .ok (i, rest) → code = encode i ++ rest

/-- R64: the unassigned codes are exactly those of the list, 232 in all, and a transaction with one is refused whatever its
operands (the spec's decision D3). -/
def Obligations.UnassignedCodesAreRefused : Prop :=
  (∀ op : Byte, unassignedOp op ↔ decodeOp op = none) ∧
    ((List.range 256).filter fun n => (decodeOp (BitVec.ofNat 8 n)).isNone).length = 232 ∧
    ∀ (s : State) (c : Command) (rest : List HostEvent), s.queue = .issue c :: rest → unassignedOp c.op →
      step s = .refused (.unassignedOp c.op)

/-- R62, R66: the operands of a transaction stand on the ports of its format in port order (the spec's decision D4). That no
other operand port holds a value is the model's choice, assumption log 7. -/
def Obligations.OperandsStandOnTheirPorts : Prop :=
  ∀ a b s key block iv msg : Bytes,
    loadPorts .l8 [a] = { a := some a } ∧ loadPorts .g8 [a, b] = { a := some a, b := some b } ∧
    loadPorts .s128 [s] = { s := some s } ∧ loadPorts .kf16 [key] = { key := some key } ∧
    loadPorts .kf24 [key] = { key := some key } ∧ loadPorts .kf32 [key] = { key := some key } ∧
    loadPorts .kv [key] = { key := some key } ∧ loadPorts .bk [block, key] = { block := some block, key := some key } ∧
    loadPorts .mk [key, msg] = { key := some key, msg := some msg } ∧
    loadPorts .mik [iv, key, msg] = { iv := some iv, key := some key, msg := some msg }

/-- A step runs the decoded operation: the host's next transaction, whose op byte decodes to i and whose operands have
values that fit i's format, runs as exec of i on the state in which it is issued (the rest of the host's queue left), and
its response is handed to the host. (The host's queue and buffers are the model's, assumption log 4.) -/
def Obligations.StepRunsTheDecodedTransaction : Prop :=
  ∀ (s : State) (c : Command) (rest : List HostEvent) (i : Instr) (operands : List Bytes),
    s.queue = .issue c :: rest → decode [c.op] = .ok (i, []) → resolveAll s.buffers c.srcs = some operands →
    wellFormed i operands = true →
    step s = collect c.dst (exec i ((s.withQueue rest).issue i operands))

/-- R62, R288: a transaction that gives a fixed-width port a value of another length is refused before execution (the spec's
decision D25). -/
def Obligations.WrongWidthIsRefused : Prop :=
  ∀ (s : State) (c : Command) (rest : List HostEvent) (i : Instr) (operands : List Bytes) (k n : Nat) (p : PortName)
    (v : Bytes),
    s.queue = .issue c :: rest → decode [c.op] = .ok (i, []) → resolveAll s.buffers c.srcs = some operands →
    i.format.ports[k]? = some (p, .fixed n) → operands[k]? = some v → v.length ≠ n →
    step s = .refused .illFormedOperands

/-- A step that answers takes exactly one of the host's events, so a program of n events has ended after n steps or has
stopped earlier (R317: every transaction terminates). With nothing queued the block waits, its state unchanged (the model's
choice, assumption log 4). -/
def Obligations.EachStepTakesOneEvent : Prop :=
  (∀ s : State, s.queue = [] → step s = .next s) ∧
    ∀ (s t : State) (e : HostEvent) (rest : List HostEvent), s.queue = e :: rest → step s = .next t → t.queue = rest

/-! ## Reset and the invariant -/

/-- R30: what reset leaves in the ROMs, the transient registers, the status and the result ports (the spec's decision D18).
That the op code and operand ports hold no value either is the model's choice, assumption log 7. -/
def Obligations.ResetLeavesNoValue : Prop :=
  State.reset.roms = ⟨sboxTable, invSboxTable, rconTable⟩ ∧ State.reset.datapath = {} ∧ State.reset.op = none ∧
    State.reset.inp = {} ∧ State.reset.status = none ∧ State.reset.outp = {}

/-- R310: reset touches no ROM, the transaction in progress is abandoned with no status and no result (nothing is stored for
it), whichever it is, and no transient register, status or result port holds a value (the spec's decision D18). That the op
code and operand ports hold no value is the model's choice, assumption logs 7 and 11; that the host's queue and buffers stay is
the model's choice, assumption log 11. -/
def Obligations.ResetAbandonsTheTransaction : Prop :=
  ∀ (s : State) (running : Option Command) (rest : List HostEvent), s.queue = .reset running :: rest →
    ∃ t, step s = .next t ∧ t.roms = s.roms ∧ t.op = none ∧ t.inp = {} ∧ t.datapath = {} ∧ t.status = none ∧
      t.outp = {} ∧ t.buffers = s.buffers ∧ t.queue = rest

/-- The invariant holds right after reset. -/
def Obligations.ResetMeetsTheInvariant : Prop := State.reset.Inv

/-- Every step keeps the invariant, from every state that meets it: the ROMs hold their contents, no transient register
keeps a value, status and results agree with the op's format, and the host's buffers are canonical. -/
def Obligations.EveryStepKeepsTheInvariant : Prop := ∀ s t : State, s.Inv → step s = .next t → t.Inv

/-! ## What holds of every operation -/

/-- The frame of all operations: a transaction writes its status and result ports and leaves the transient registers dead;
the ROMs, the operand ports, the host's queue and the host's buffers are as before. -/
def Obligations.OperationsWriteOnlyTheirAnswer : Prop :=
  ∀ (i : Instr) (s t : State), exec i s = .next t →
    t.roms = s.roms ∧ t.op = s.op ∧ t.inp = s.inp ∧ t.queue = s.queue ∧ t.buffers = s.buffers ∧ t.datapath = {}

/-- R20: the answer is a function of the op code and the operands alone: nothing an earlier transaction left (status, result
ports, transient registers, operand ports) and nothing the host holds changes it, and a transaction leaves the ROMs as they
are. -/
def Obligations.AnswerIsAFunctionOfTheOperands : Prop :=
  (∀ (i : Instr) (operands : List Bytes) (s t : State), s.roms = t.roms →
      sameAnswer (exec i (s.issue i operands)) (exec i (t.issue i operands))) ∧
    ∀ s t : State, step s = .next t → t.roms = s.roms

/-- R280: the codes of the statuses (the spec's decision D6), and every transaction that ends writes one. -/
def Obligations.EveryTransactionWritesAStatus : Prop :=
  Status.code .ok = 0 ∧ Status.code (.err .invalidKeyLength) = 1 ∧ Status.code (.err .invalidBlockLength) = 2 ∧
    Status.code (.err .emptyInput) = 3 ∧
    ∀ (i : Instr) (s t : State), exec i s = .next t → ∃ st, t.status = some st

/-- R282, which the spec derives: an op reports a status of its row of the table and no other, and it can report each of
them. -/
def Obligations.StatusesAreThoseOfTheTable : Prop :=
  (∀ (i : Instr) (s t : State), exec i s = .next t → ∃ st ∈ reportable i, t.status = some st) ∧
    ∀ (i : Instr), ∀ st ∈ reportable i, ∃ s t, exec i s = .next t ∧ t.status = some st

/-- R283: with an error status no result port is written and no state changes, and the block is ready at once: the same
transaction issued again reports the same error. That a result port not written holds no value, whatever an earlier
transaction left on it, is the model's reading of R283, assumption log 5. -/
def Obligations.ErrorsWriteNoResult : Prop :=
  ∀ (i : Instr) (s t : State) (e : Error), exec i s = .next t → t.status = some (.err e) →
    t.outp = {} ∧ t.roms = s.roms ∧ t.queue = s.queue ∧ t.buffers = s.buffers ∧ t.inp = s.inp ∧
      exec i t = .next t

/-- R287: the model faults, their causes, and that there is no other (the spec's decisions D10 and D12). -/
def Obligations.FaultsAreThoseOfTheTable : Prop :=
  ∀ (i : Instr) (s : State) (f : Fault), exec i s = .fault f ↔
    (f = .rconIndexOutOfDomain ∧ i = .rcon ∧ ∃ a : Byte, s.inp.a = some [a] ∧ (a.toNat = 0 ∨ 11 ≤ a.toNat)) ∨
    (f = .unpadUnderflow ∧ i = .ecbDec ∧ ∃ key msg v, s.inp.key = some key ∧ s.inp.msg = some msg ∧
      variantOf key = .ok v ∧ msg ≠ [] ∧ msg.length % 16 = 0 ∧ ∀ x ∈ ecbMap (decryptWith s.roms v key) msg, x = 0x00) ∨
    (f = .unpadUnderflow ∧ i = .cbcDec ∧ ∃ iv key msg v, s.inp.iv = some iv ∧ s.inp.key = some key ∧
      s.inp.msg = some msg ∧ variantOf key = .ok v ∧ iv.length = 16 ∧ msg ≠ [] ∧ msg.length % 16 = 0 ∧
      ∀ x ∈ cbcDecrypt (decryptWith s.roms v key) iv (blocksOf msg), x = 0x00)

/-- R288: what the machine refuses, and why; no other transaction is refused (the spec's decisions D3, D15, D25). (That an
operand naming a buffer without a value is refused is the model's own choice, assumption log 6; that a missing or an extra
operand makes a transaction ill-formed is its inference, assumption log 16.) -/
def Obligations.RefusalsAreThoseListed : Prop :=
  ∀ (s : State) (r : Refusal), step s = .refused r → ∃ c rest, s.queue = .issue c :: rest ∧
    ((r = .unassignedOp c.op ∧ decodeOp c.op = none) ∨
      (r = .operandWithoutValue ∧ resolveAll s.buffers c.srcs = none) ∨
      ∃ i operands, decodeOp c.op = some i ∧ resolveAll s.buffers c.srcs = some operands ∧
        ((r = .illFormedOperands ∧ wellFormed i operands = false) ∨
          (r = .ctrMessageTooLong ∧ (i = .ctrEnc ∨ i = .ctrDec) ∧
            ∃ msg, operands[2]? = some msg ∧ 2 ^ 64 < (msg.length + 15) / 16)))

/-- R62: a transaction that ends with OK has written the result ports of its format and no others (the
spec's decision D4; that a port not written holds no value is assumption log 5). -/
def Obligations.ResultsFitTheFormat : Prop :=
  ∀ (i : Instr) (s t : State), exec i s = .next t → t.status = some .ok → t.outp.fits i.format

/-- R41, R314: the host stores the response under the name it chose and under no other, and the next transaction can take
the result as an operand at once (the spec's decisions D23 and D24; the buffers are the model's, assumption log 4, and so is that a response, an error's
too, replaces whole what the name held, assumption log 21). -/
def Obligations.HostStoresTheResponse : Prop :=
  ∀ (s t : State) (c : Command) (rest : List HostEvent), s.queue = .issue c :: rest → step s = .next t →
    (∃ st, t.status = some st ∧ bufferGet t.buffers c.dst = some ⟨st, t.outp.value⟩) ∧
      resolve t.buffers (.buf c.dst) = t.outp.value ∧
      ∀ name, name ≠ c.dst → bufferGet t.buffers name = bufferGet s.buffers name

/-- R52: two transactions next to each other, stored under different names and neither reading the other's result, may be
reordered: the host ends with the same results (R52 is derived by the spec from R20; the host's queue and buffers
are the model's, assumption log 4). -/
def Obligations.TransactionsMayBeReordered : Prop :=
  ∀ (s a b : State) (c d : Command) (rest : List HostEvent),
    s.queue = .issue c :: .issue d :: rest → c.dst ≠ d.dst → Source.buf c.dst ∉ d.srcs → Source.buf d.dst ∉ c.srcs →
    step s = .next a → step a = .next b →
    ∃ a' b', step (s.withQueue (.issue d :: .issue c :: rest)) = .next a' ∧ step a' = .next b' ∧
      b'.buffers = b.buffers ∧ b'.queue = b.queue ∧ b'.roms = b.roms

/-! ## Field primitives -/

/-- R101; that the S-box has no fixed point is derived by the spec from the table. -/
def Obligations.SboxReadsItsRom : Prop :=
  (∀ (s : State) (a : Byte), s.inp.a = some [a] →
      exec .sbox s = .next (s.respond .ok { y := some (s.roms.sboxAt a) })) ∧
    Roms.standard.sboxAt 0x00 = 0x63 ∧ Roms.standard.sboxAt 0xFF = 0x16 ∧ Roms.standard.sboxAt 0x63 = 0xFB ∧
    Roms.standard.sboxAt 0x53 = 0xED ∧ ∀ a, Roms.standard.sboxAt a ≠ a

/-- R103: op 0x01 of format L8 reads its ROM at every byte and always ends with OK; and the two tables are mutual inverses
(R102). -/
def Obligations.InvSboxReadsItsRom : Prop :=
  decode [0x01] = .ok (.invSbox, []) ∧ Instr.invSbox.format = .l8 ∧
    (∀ (s : State) (a : Byte), s.inp.a = some [a] →
      exec .invSbox s = .next (s.respond .ok { y := some (s.roms.invSboxAt a) })) ∧
    Roms.standard.invSboxAt 0x63 = 0x00 ∧ Roms.standard.invSboxAt 0x00 = 0x52 ∧ Roms.standard.invSboxAt 0x16 = 0xFF ∧
    Roms.standard.invSboxAt 0xED = 0x53 ∧
    ∀ a, Roms.standard.invSboxAt (Roms.standard.sboxAt a) = a ∧ Roms.standard.sboxAt (Roms.standard.invSboxAt a) = a

/-- R104: every entry of the S-box is the affine image of the field inverse, with 0x00 mapped to 0x00. -/
def Obligations.SboxIsTheAffineImageOfTheInverse : Prop :=
  ∀ a : Byte, ∃ b : Byte, (if a = 0x00 then b = 0x00 else gmul a b = 0x01) ∧
    Roms.standard.sboxAt a = b ^^^ rotl8 b 1 ^^^ rotl8 b 2 ^^^ rotl8 b 3 ^^^ rotl8 b 4 ^^^ 0x63

/-- R105: the round constants, their recurrence, that none is zero, and their domain (which the spec derives). -/
def Obligations.RoundConstantsAreThePowersOfX : Prop :=
  Roms.standard.rconAt 1 = some 0x01 ∧
    (∀ i, 1 ≤ i → i < 10 → Roms.standard.rconAt (i + 1) = (Roms.standard.rconAt i).map xtime) ∧
    (∀ i y, Roms.standard.rconAt i = some y → y ≠ 0x00 ∧ 1 ≤ i ∧ i ≤ 10) ∧
    [1, 2, 3, 4, 5, 6, 7, 8, 9, 10].map Roms.standard.rconAt =
      [some 0x01, some 0x02, some 0x04, some 0x08, some 0x10, some 0x20, some 0x40, some 0x80, some 0x1B, some 0x36]

/-- R106: an index in 1..10 is answered from the ROM, and any other is the model fault (the spec's decision
D12). -/
def Obligations.RconAnswersInItsDomain : Prop :=
  (∀ (s : State) (a : Byte), s.inp.a = some [a] → 1 ≤ a.toNat → a.toNat ≤ 10 →
      ∃ y, s.roms.rconAt a.toNat = some y ∧ exec .rcon s = .next (s.respond .ok { y := some y })) ∧
    (∀ (s : State) (a : Byte), s.inp.a = some [a] → a.toNat = 0 ∨ 11 ≤ a.toNat →
      exec .rcon s = .fault .rconIndexOutOfDomain) ∧
    Roms.standard.rconAt 0x09 = some 0x1B

/-- R111: GFMUL gives the field product of any two bytes (the spec's decision D13). -/
def Obligations.GfmulGivesTheFieldProduct : Prop :=
  (∀ (s : State) (a b : Byte), s.inp.a = some [a] → s.inp.b = some [b] →
      exec .gfmul s = .next (s.respond .ok { y := some (gmul a b) })) ∧
    (∀ a : Byte, gmul a 0x00 = 0x00 ∧ gmul 0x00 a = 0x00 ∧ gmul a 0x01 = a) ∧
    (∀ a b : Byte, gmul a b = gmul b a) ∧ gmul 0x80 0x02 = 0x1B ∧ gmul 0x57 0x83 = 0xC1 ∧ gmul 0x57 0x13 = 0xFE

/-- R107: the doubling loop computes the product of polynomials reduced modulo 0x11B, xtime is multiplication by x, and the
constant it XORs is the low 8 bits of 0x11B, which is x^8 reduced. -/
def Obligations.GmulIsThePolynomialProduct : Prop :=
  (∀ a b : Byte, (gmul a b).toNat = polyReduce (polyMul a.toNat b.toNat)) ∧
    (∀ a : Byte, (xtime a).toNat = polyReduce (2 * a.toNat)) ∧ polyReduce (2 ^ 8) = 0x11B % 2 ^ 8

/-- R110: the laws of the product (commutative, associative, distributive over XOR, 0x01 and 0x00), and that the constant
multipliers of R109 are products by their constants; the spec derives them. -/
def Obligations.GmulLaws : Prop :=
  (∀ a b : Byte, gmul a b = gmul b a) ∧ (∀ a b c : Byte, gmul (gmul a b) c = gmul a (gmul b c)) ∧
    (∀ a b c : Byte, gmul a (b ^^^ c) = gmul a b ^^^ gmul a c) ∧
    (∀ a : Byte, gmul a 0x01 = a ∧ gmul a 0x00 = 0x00 ∧ gmul a 2 = mul2 a ∧ gmul a 3 = mul3 a ∧ gmul a 9 = mul9 a ∧
      gmul a 11 = mul11 a ∧ gmul a 13 = mul13 a ∧ gmul a 14 = mul14 a)

/-- R112, which the spec derives: distributivity, the unique inverse, and xtime as a permutation and a product. -/
def Obligations.FieldIdentities : Prop :=
  (∀ a b c : Byte, gmul a (b ^^^ c) = gmul a b ^^^ gmul a c) ∧
    (∀ a : Byte, a ≠ 0x00 → ∃ b : Byte, gmul a b = 0x01 ∧ ∀ c : Byte, gmul a c = 0x01 → c = b) ∧
    (∀ a b : Byte, xtime a = xtime b → a = b) ∧ (∀ b : Byte, ∃ a : Byte, xtime a = b) ∧
    ∀ a : Byte, xtime a = gmul a 0x02

/-! ## State transforms -/

/-- R130: the block and its State Matrix, both ways. -/
def Obligations.BlockAndMatrixAreExactInverses : Prop :=
  (∀ B : Bytes, B.length = 16 → fromState (toState B) = B) ∧ (∀ S : StateMatrix, toState (fromState S) = S) ∧
    ∀ (B : Bytes) (i : Nat) (h : i / 4 < 4), B.length = 16 →
      some ((toState B).get ⟨i % 4, Nat.mod_lt i (by decide)⟩ ⟨i / 4, h⟩) = B[i]?

/-- R132 to R134: SUB_BYTES and INV_SUB_BYTES look every byte up in its ROM, lane by lane. -/
def Obligations.SubBytesActsLaneByLane : Prop :=
  ∀ (s : State) (B : Bytes), s.inp.s = some B → B.length = 16 →
    exec .subBytes s = .next (s.respond .ok { sOut := some (B.map s.roms.sboxAt) }) ∧
    exec .invSubBytes s = .next (s.respond .ok { sOut := some (B.map s.roms.invSboxAt) })

/-- R135 to R138: SHIFT_ROWS and INV_SHIFT_ROWS move byte `ShiftIdx[i]`, or `InvShiftIdx[i]`, to place i; the spec
derives the byte form from the rotation of the rows. -/
def Obligations.ShiftRowsMovesBytesByTheIndexTables : Prop :=
  ∀ (s : State) (B : Bytes), s.inp.s = some B → B.length = 16 →
    exec .shiftRows s = .next (s.respond .ok { sOut := some (shiftIdx.map fun k => B.getD k 0) }) ∧
    exec .invShiftRows s = .next (s.respond .ok { sOut := some (invShiftIdx.map fun k => B.getD k 0) })

/-- R139 to R141, R143, R144: MIX_COLUMNS and INV_MIX_COLUMNS multiply each column by the MDS matrix, or by its inverse:
byte r of column c is row r of the matrix times column c. -/
def Obligations.MixColumnsIsTheMatrixProduct : Prop :=
  ∀ (s : State) (B : Bytes), s.inp.s = some B → B.length = 16 →
    exec .mixColumns s = .next (s.respond .ok { sOut := some ((List.range 16).map fun i =>
      rowTimes mdsRows (i % 4) (slice B (4 * (i / 4)) (4 * (i / 4) + 4))) }) ∧
    exec .invMixColumns s = .next (s.respond .ok { sOut := some ((List.range 16).map fun i =>
      rowTimes invMdsRows (i % 4) (slice B (4 * (i / 4)) (4 * (i / 4) + 4))) })

/-- R142: the inverses are exact (a), SubBytes and ShiftRows commute, and so do their inverses (b), MixColumns and
InvMixColumns are linear (c), and states with equal bytes in every column are their fixed points (d).
The spec derives them. -/
def Obligations.TransformLaws : Prop :=
  (∀ S : StateMatrix, invSubBytes Roms.standard (subBytes Roms.standard S) = S ∧
      subBytes Roms.standard (invSubBytes Roms.standard S) = S ∧ invShiftRows (shiftRows S) = S ∧
      shiftRows (invShiftRows S) = S ∧ invMixColumns (mixColumns S) = S ∧ mixColumns (invMixColumns S) = S) ∧
    (∀ (m : Roms) (S : StateMatrix), subBytes m (shiftRows S) = shiftRows (subBytes m S) ∧
      invSubBytes m (invShiftRows S) = invShiftRows (invSubBytes m S)) ∧
    (∀ S K : StateMatrix,
      mixColumns (.ofFn fun r c => S.get r c ^^^ K.get r c) =
        .ofFn (fun r c => (mixColumns S).get r c ^^^ (mixColumns K).get r c) ∧
      invMixColumns (.ofFn fun r c => S.get r c ^^^ K.get r c) =
        .ofFn (fun r c => (invMixColumns S).get r c ^^^ (invMixColumns K).get r c)) ∧
    ∀ S : StateMatrix, (∀ r c, S.get r c = S.get 0 c) → mixColumns S = S ∧ invMixColumns S = S

/-! ## Key schedule -/

/-- R160, R161: the schedule begins with the key, and every later column is the column N before it XOR `T`. -/
def Obligations.ScheduleFollowsTheRecurrence : Prop :=
  ∀ (m : Roms) (v : Variant) (key : Bytes), key.length = v.keyBytes →
    (keySchedule m v key).length = 4 * (v.rounds + 1) ∧
    (∀ (j : Nat) (k : Fin 4), j < v.keyColumns →
      some ((wordAt (keySchedule m v key) j).get k) = key[4 * j + k.val]?) ∧
    ∀ i, v.keyColumns ≤ i → i < 4 * (v.rounds + 1) →
      wordAt (keySchedule m v key) i = (wordAt (keySchedule m v key) (i - v.keyColumns)).xor
        (if i % v.keyColumns = 0 then
            (subWord m (rotWord (wordAt (keySchedule m v key) (i - 1)))).xor (rconWord m (i / v.keyColumns))
          else if v.keyColumns = 8 ∧ i % v.keyColumns = 4 then subWord m (wordAt (keySchedule m v key) (i - 1))
          else wordAt (keySchedule m v key) (i - 1))

/-- R163 to R165: the three fixed-width variants answer the schedule of their variant, of 44, 52 and 60 words. -/
def Obligations.FixedVariantsAnswerTheSchedule : Prop :=
  ∀ (s : State) (key : Bytes), s.inp.key = some key →
    (key.length = 16 → exec .ks128 s = .next (s.respond .ok { w := some (keySchedule s.roms .aes128 key) }) ∧
      (keySchedule s.roms .aes128 key).length = 44) ∧
    (key.length = 24 → exec .ks192 s = .next (s.respond .ok { w := some (keySchedule s.roms .aes192 key) }) ∧
      (keySchedule s.roms .aes192 key).length = 52) ∧
    (key.length = 32 → exec .ks256 s = .next (s.respond .ok { w := some (keySchedule s.roms .aes256 key) }) ∧
      (keySchedule s.roms .aes256 key).length = 60)

/-- R166: EXPAND_KEY, op 0x23 of format KV, answers what the variant of the key's length answers, and `InvalidKeyLength`
with no schedule for a key of any other length. -/
def Obligations.ExpandKeyDispatchesOnTheKeyLength : Prop :=
  decode [0x23] = .ok (.expandKey, []) ∧ Instr.expandKey.format = .kv ∧
  ∀ (s : State) (key : Bytes), s.inp.key = some key →
    (key.length = 16 → exec .expandKey s = exec .ks128 s ∧
      exec .expandKey s = .next (s.respond .ok { w := some (keySchedule s.roms .aes128 key) }) ∧
      (keySchedule s.roms .aes128 key).length = 44) ∧
    (key.length = 24 → exec .expandKey s = exec .ks192 s ∧
      exec .expandKey s = .next (s.respond .ok { w := some (keySchedule s.roms .aes192 key) }) ∧
      (keySchedule s.roms .aes192 key).length = 52) ∧
    (key.length = 32 → exec .expandKey s = exec .ks256 s ∧
      exec .expandKey s = .next (s.respond .ok { w := some (keySchedule s.roms .aes256 key) }) ∧
      (keySchedule s.roms .aes256 key).length = 60) ∧
    (¬ validKey key → exec .expandKey s = .next (s.respond (.err .invalidKeyLength) {}))

/-- R168: exactly 44, 52 or 60 words, and the schedule is a function of the key alone. -/
def Obligations.ScheduleLengthLaw : Prop :=
  (∀ (s : State) (key : Bytes), s.inp.key = some key → validKey key →
      ∃ w, exec .expandKey s = .next (s.respond .ok { w := some w }) ∧
        (key.length = 16 → w.length = 44) ∧ (key.length = 24 → w.length = 52) ∧ (key.length = 32 → w.length = 60)) ∧
    ∀ (s t : State), s.roms = t.roms → s.inp.key = t.inp.key → sameAnswer (exec .expandKey s) (exec .expandKey t)

/-! ## Block cipher -/

/-- R190: in byte form the round key `W[4r] ++ .. ++ W[4r+3]` is XORed onto the block, and AddRoundKey is its own
inverse; the spec derives the rule from the schedule columns' use. -/
def Obligations.AddRoundKeyXorsTheRoundKey : Prop :=
  (∀ (W : List Word) (r : Nat) (S : StateMatrix), fromState (addRoundKey W r S) =
      xorBytes (fromState S)
        (flattenWords [wordAt W (4 * r), wordAt W (4 * r + 1), wordAt W (4 * r + 2), wordAt W (4 * r + 3)])) ∧
    (∀ (W : List Word) (r : Nat) (S : StateMatrix) (k c : Fin 4),
      (addRoundKey W r S).get k c = S.get k c ^^^ (wordAt W (4 * r + c.val)).get k) ∧
    ∀ (W : List Word) (r : Nat) (S : StateMatrix), addRoundKey W r (addRoundKey W r S) = S

/-- R191: the initial addition, rounds 1 to Nr-1, and the final round without MixColumns. -/
def Obligations.CipherIsItsRoundSequence : Prop :=
  ∀ (m : Roms) (v : Variant) (key B : Bytes),
    encryptWith m v key B = fromState (addRoundKey (keySchedule m v key) v.rounds (shiftRows (subBytes m
      (stateAfterRounds m (keySchedule m v key) (toState B) (v.rounds - 1)))))

/-- R192: the unmodified schedule in reverse round order (InvShiftRows first is the spec's decision D17). -/
def Obligations.InvCipherIsItsRoundSequence : Prop :=
  ∀ (m : Roms) (v : Variant) (key B : Bytes),
    decryptWith m v key B = fromState (addRoundKey (keySchedule m v key) 0 (invSubBytes m (invShiftRows
      (undoRounds m (keySchedule m v key) (v.rounds - 1) (addRoundKey (keySchedule m v key) v.rounds (toState B))))))

/-- R195: ENCRYPT_BLOCK on every length of key and block (the order of the checks is the spec's decision D7). -/
def Obligations.EncryptBlockChecksThenEnciphers : Prop :=
  ∀ (s : State) (block key : Bytes), s.inp.block = some block → s.inp.key = some key →
    (¬ validKey key → exec .encryptBlock s = .next (s.respond (.err .invalidKeyLength) {})) ∧
    (validKey key → block.length ≠ 16 → exec .encryptBlock s = .next (s.respond (.err .invalidBlockLength) {})) ∧
    ∀ v : Variant, key.length = v.keyBytes → block.length = 16 →
      exec .encryptBlock s = .next (s.respond .ok
        { out := some (fromState (cipher s.roms (keySchedule s.roms v key) v.rounds (toState block))) })

/-- R196: DECRYPT_BLOCK on every length of key and block (the order of the checks is the spec's decision D7). -/
def Obligations.DecryptBlockChecksThenDeciphers : Prop :=
  ∀ (s : State) (block key : Bytes), s.inp.block = some block → s.inp.key = some key →
    (¬ validKey key → exec .decryptBlock s = .next (s.respond (.err .invalidKeyLength) {})) ∧
    (validKey key → block.length ≠ 16 → exec .decryptBlock s = .next (s.respond (.err .invalidBlockLength) {})) ∧
    ∀ v : Variant, key.length = v.keyBytes → block.length = 16 →
      exec .decryptBlock s = .next (s.respond .ok
        { out := some (fromState (invCipher s.roms (keySchedule s.roms v key) v.rounds (toState block))) })

/-- R194: decrypting an encrypted block gives it back, and the other way round, for every 16-byte block and every valid
key (the spec derives the other way round). -/
def Obligations.BlockRoundTrip : Prop :=
  ∀ (s : State) (block key : Bytes), s.roms = Roms.standard → s.inp.block = some block → s.inp.key = some key →
    block.length = 16 → validKey key →
    (∃ c, exec .encryptBlock s = .next (s.respond .ok { out := some c }) ∧
      exec .decryptBlock (s.withPort .block c) =
        .next ((s.withPort .block c).respond .ok { out := some block })) ∧
    ∃ p, exec .decryptBlock s = .next (s.respond .ok { out := some p }) ∧
      exec .encryptBlock (s.withPort .block p) =
        .next ((s.withPort .block p).respond .ok { out := some block })

/-! ## Padding -/

/-- R222: the message, the marker, and as many zero bytes as the marker says, to the next multiple of 16
(the spec derives the length). -/
def Obligations.PadAddsMarkerAndZeros : Prop :=
  ∀ M : Bytes, ∃ z, z = 15 - M.length % 16 ∧ pad M = M ++ [BitVec.ofNat 8 z] ++ zeros z ∧
    (BitVec.ofNat 8 z : Byte).toNat = z ∧ (pad M).length = 16 * (M.length / 16 + 1)

/-- R223: every sequence is either all zeros, on which Unpad has no result, or ends in a byte that is not zero and z zeros:
that byte is discarded if it equals z and kept if not, and the zeros are not restored (the spec's decisions D10
and D11). -/
def Obligations.UnpadDropsZerosAndMarker : Prop :=
  (∀ z : Nat, unpad (zeros z) = none) ∧
    ∀ (M : Bytes) (b : Byte) (z : Nat), b ≠ 0x00 →
      unpad (M ++ [b] ++ zeros z) = some (if b.toNat = z then M else M ++ [b])

/-- R225, which the spec derives: when unpadding undoes padding, and what it gives otherwise. -/
def Obligations.UnpadAfterPadLaw : Prop :=
  (∀ M : Bytes, M.length % 16 ≠ 15 → unpad (pad M) = some M) ∧
    (∀ z : Nat, z % 16 = 15 → unpad (pad (zeros z)) = none) ∧
    (∀ (M : Bytes) (b : Byte) (z : Nat), b ≠ 0x00 → (M ++ [b] ++ zeros z).length % 16 = 15 →
      unpad (pad (M ++ [b] ++ zeros z)) = some (if b.toNat = 1 + z then M else M ++ [b])) ∧
    ∀ M : Bytes, unpad (pad M) = some M ↔ padReversible M

/-! ## Modes -/

/-- R286: when several errors apply, the key's is reported first, then the block's or the IV's, then the message's framing,
then the empty message (the spec's decisions D7, D8 and D9). -/
def Obligations.ErrorsAreReportedInOrder : Prop :=
  (∀ (s : State) (key msg : Bytes), s.inp.key = some key → s.inp.msg = some msg →
      (¬ validKey key → exec .ecbEnc s = .next (s.respond (.err .invalidKeyLength) {}) ∧
        exec .ecbDec s = .next (s.respond (.err .invalidKeyLength) {})) ∧
      (validKey key → msg.length % 16 ≠ 0 → exec .ecbDec s = .next (s.respond (.err .invalidBlockLength) {})) ∧
      (validKey key → msg = [] → exec .ecbDec s = .next (s.respond (.err .emptyInput) {}))) ∧
    (∀ i ∈ [Instr.cbcEnc, .cbcDec, .cfbEnc, .cfbDec, .ctrEnc, .ctrDec], ∀ (s : State) (iv key msg : Bytes),
      s.inp.iv = some iv → s.inp.key = some key → s.inp.msg = some msg → msg.length ≤ 16 * 2 ^ 64 →
      (¬ validKey key → exec i s = .next (s.respond (.err .invalidKeyLength) {})) ∧
      (validKey key → iv.length ≠ 16 → exec i s = .next (s.respond (.err .invalidBlockLength) {})) ∧
      (i = .cbcDec → validKey key → msg.length % 16 ≠ 0 → exec i s = .next (s.respond (.err .invalidBlockLength) {})) ∧
      (i ≠ .cbcEnc → validKey key → iv.length = 16 → msg = [] → exec i s = .next (s.respond (.err .emptyInput) {}))) ∧
    ∀ i ∈ [Instr.encryptBlock, .decryptBlock], ∀ (s : State) (block key : Bytes),
      s.inp.block = some block → s.inp.key = some key →
      (¬ validKey key → exec i s = .next (s.respond (.err .invalidKeyLength) {})) ∧
      (validKey key → block.length ≠ 16 → exec i s = .next (s.respond (.err .invalidBlockLength) {}))

/-- R230: ECB_ENC answers the padded message's blocks, each enciphered on its own, and `InvalidKeyLength` for a key of
another length. -/
def Obligations.EcbEncEnciphersEachBlock : Prop :=
  ∀ (s : State) (key msg : Bytes), s.inp.key = some key → s.inp.msg = some msg →
    (∀ v : Variant, key.length = v.keyBytes →
      ∃ out, exec .ecbEnc s = .next (s.respond .ok { out := some out }) ∧ out.length = 16 * (msg.length / 16 + 1) ∧
        ∀ b, b < msg.length / 16 + 1 →
          slice out (16 * b) (16 * b + 16) = encryptWith s.roms v key (slice (pad msg) (16 * b) (16 * b + 16))) ∧
    (¬ validKey key → exec .ecbEnc s = .next (s.respond (.err .invalidKeyLength) {}))

/-- R231: ECB_DEC deciphers each block on its own and strips the padding; where every byte it gets is zero it faults (the
spec's decision D10). -/
def Obligations.EcbDecDeciphersEachBlock : Prop :=
  ∀ (s : State) (key msg P : Bytes) (v : Variant), s.inp.key = some key → s.inp.msg = some msg →
    key.length = v.keyBytes → msg ≠ [] → msg.length % 16 = 0 → P = ecbMap (decryptWith s.roms v key) msg →
    P.length = msg.length ∧
    (∀ b, b < msg.length / 16 →
      slice P (16 * b) (16 * b + 16) = decryptWith s.roms v key (slice msg (16 * b) (16 * b + 16))) ∧
    ((∃ x ∈ P, x ≠ 0x00) → ∃ M, unpad P = some M ∧ exec .ecbDec s = .next (s.respond .ok { out := some M })) ∧
    ((∀ x ∈ P, x = 0x00) → exec .ecbDec s = .fault .unpadUnderflow)

/-- R240: CBC_ENC XORs each padded block with the ciphertext block before it, or the IV, and enciphers. -/
def Obligations.CbcEncChainsTheBlocks : Prop :=
  ∀ (s : State) (iv key msg : Bytes) (v : Variant), s.inp.iv = some iv → s.inp.key = some key → s.inp.msg = some msg →
    key.length = v.keyBytes → iv.length = 16 →
    ∃ out, exec .cbcEnc s = .next (s.respond .ok { out := some out }) ∧ out.length = 16 * (msg.length / 16 + 1) ∧
      ∀ b, b < msg.length / 16 + 1 →
        slice out (16 * b) (16 * b + 16) = encryptWith s.roms v key (xorBytes (slice (pad msg) (16 * b) (16 * b + 16))
          (if b = 0 then iv else slice out (16 * (b - 1)) (16 * b)))

/-- R241: CBC_DEC deciphers each block, XORs it with the ciphertext block before it, or the IV, and strips the padding;
where every byte it gets is zero it faults (the spec's decision D10). -/
def Obligations.CbcDecUnchainsTheBlocks : Prop :=
  ∀ (s : State) (iv key msg P : Bytes) (v : Variant), s.inp.iv = some iv → s.inp.key = some key →
    s.inp.msg = some msg → key.length = v.keyBytes → iv.length = 16 → msg ≠ [] → msg.length % 16 = 0 →
    P = cbcDecrypt (decryptWith s.roms v key) iv (blocksOf msg) →
    P.length = msg.length ∧
    (∀ b, b < msg.length / 16 →
      slice P (16 * b) (16 * b + 16) = xorBytes (decryptWith s.roms v key (slice msg (16 * b) (16 * b + 16)))
        (if b = 0 then iv else slice msg (16 * (b - 1)) (16 * b))) ∧
    ((∃ x ∈ P, x ≠ 0x00) → ∃ M, unpad P = some M ∧ exec .cbcDec s = .next (s.respond .ok { out := some M })) ∧
    ((∀ x ∈ P, x = 0x00) → exec .cbcDec s = .fault .unpadUnderflow)

/-- R251: ciphertext byte i is plaintext byte i XOR the first byte of the enciphered feedback, which holds the 16 bytes
before place i of the IV followed by the ciphertext (C6). -/
def Obligations.CfbEncFeedsBackTheCiphertext : Prop :=
  ∀ (s : State) (iv key msg : Bytes) (v : Variant), s.inp.iv = some iv → s.inp.key = some key → s.inp.msg = some msg →
    key.length = v.keyBytes → iv.length = 16 → msg ≠ [] →
    ∃ out, exec .cfbEnc s = .next (s.respond .ok { out := some out }) ∧ out.length = msg.length ∧
      ∀ i, out[i]? = (msg[i]?).map fun x =>
        (encryptWith s.roms v key (slice (iv ++ out) i (i + 16))).getD 0 0 ^^^ x

/-- R252: CFB_DEC uses the forward cipher and the ciphertext's own bytes, and an error in ciphertext byte i affects
plaintext bytes i to i+16 and no others (which the spec derives). -/
def Obligations.CfbDecIsSelfSynchronising : Prop :=
  ∀ (s : State) (iv key msg : Bytes) (v : Variant), s.inp.iv = some iv → s.inp.key = some key → s.inp.msg = some msg →
    key.length = v.keyBytes → iv.length = 16 → msg ≠ [] →
    ∃ out, exec .cfbDec s = .next (s.respond .ok { out := some out }) ∧ out.length = msg.length ∧
      (∀ i, out[i]? = (msg[i]?).map fun c =>
        (encryptWith s.roms v key (slice (iv ++ msg) i (i + 16))).getD 0 0 ^^^ c) ∧
      ∀ (i : Nat) (c : Byte), ∃ out',
        exec .cfbDec (s.withPort .msg (msg.set i c)) =
          .next ((s.withPort .msg (msg.set i c)).respond .ok { out := some out' }) ∧
        ∀ k, (k < i ∨ i + 16 < k) → out'[k]? = out[k]?

/-- R260 to R262: CTR_ENC and CTR_DEC, identical: byte k of block j is XORed with byte k of the enciphered counter block
`IV[0..8] ++ HEX_ENCODE_COUNTER(j)`, under the parameter HEX_ENCODE_COUNTER whatever it is (R8, D14,
assumption log 1). -/
def Obligations.CtrXorsTheCounterKeystream : Prop :=
  ∀ i ∈ [Instr.ctrEnc, .ctrDec], ∀ (s : State) (iv key msg : Bytes) (v : Variant), s.inp.iv = some iv →
    s.inp.key = some key → s.inp.msg = some msg → key.length = v.keyBytes → iv.length = 16 → msg ≠ [] →
    msg.length ≤ 16 * 2 ^ 64 →
    ∃ out, exec i s = .next (s.respond .ok { out := some out }) ∧ out.length = msg.length ∧
      ∀ k, out[k]? = (msg[k]?).map fun x => x ^^^ (encryptWith s.roms v key
        (slice iv 0 8 ++ (Config.hexEncodeCounter (BitVec.ofNat 64 (k / 16))).toList)).getD (k % 16) 0

/-- R260: IV bytes 8..15 are not read, although the IV must have 16 bytes; and R7: a message of more than 2^64 blocks is
refused (the spec's decision D15; before any other check by assumption log 8). -/
def Obligations.CtrReadsHalfTheIv : Prop :=
  (∀ i ∈ [Instr.ctrEnc, .ctrDec], ∀ (s t : State) (iv iv' : Bytes), s.roms = t.roms → s.inp.iv = some iv →
      t.inp.iv = some iv' → iv.length = 16 → iv'.length = 16 → slice iv 0 8 = slice iv' 0 8 → s.inp.key = t.inp.key →
      s.inp.msg = t.inp.msg → sameAnswer (exec i s) (exec i t)) ∧
    ∀ i ∈ [Instr.ctrEnc, .ctrDec], ∀ (s : State) (iv key msg : Bytes), s.inp.iv = some iv → s.inp.key = some key →
      s.inp.msg = some msg → 16 * 2 ^ 64 < msg.length → exec i s = .refused .ctrMessageTooLong

/-- R263, first law, which the spec derives: ECB and CBC decryption undoes encryption for every message that meets
R225 (c). -/
def Obligations.EcbCbcRoundTrip : Prop :=
  (∀ (s : State) (key msg : Bytes), s.roms = Roms.standard → s.inp.key = some key → s.inp.msg = some msg →
      validKey key → padReversible msg →
      ∃ c, exec .ecbEnc s = .next (s.respond .ok { out := some c }) ∧
        exec .ecbDec (s.withPort .msg c) =
          .next ((s.withPort .msg c).respond .ok { out := some msg })) ∧
    ∀ (s : State) (iv key msg : Bytes), s.roms = Roms.standard → s.inp.iv = some iv → s.inp.key = some key →
      s.inp.msg = some msg → validKey key → iv.length = 16 → padReversible msg →
      ∃ c, exec .cbcEnc s = .next (s.respond .ok { out := some c }) ∧
        exec .cbcDec (s.withPort .msg c) =
          .next ((s.withPort .msg c).respond .ok { out := some msg })

/-- R263, second law, which the spec derives: CFB and CTR decryption undoes encryption for every message that is not empty,
whatever the ROMs hold and whatever HEX_ENCODE_COUNTER is; and CTR_ENC is its own inverse (R262). -/
def Obligations.CfbCtrRoundTrip : Prop :=
  ∀ (s : State) (iv key msg : Bytes), s.inp.iv = some iv → s.inp.key = some key → s.inp.msg = some msg →
    validKey key → iv.length = 16 → msg ≠ [] →
    (∃ c, exec .cfbEnc s = .next (s.respond .ok { out := some c }) ∧
      exec .cfbDec (s.withPort .msg c) =
        .next ((s.withPort .msg c).respond .ok { out := some msg })) ∧
    (msg.length ≤ 16 * 2 ^ 64 → ∃ c, exec .ctrEnc s = .next (s.respond .ok { out := some c }) ∧
      exec .ctrDec (s.withPort .msg c) =
        .next ((s.withPort .msg c).respond .ok { out := some msg }) ∧
      exec .ctrEnc (s.withPort .msg c) =
        .next ((s.withPort .msg c).respond .ok { out := some msg }))
end

