-- ==== Sys2Proof/Laws/State.lean ====
section
/-! SUPPORT. One lemma per field per named update of State, true by rfl, so that no later proof unfolds a record update. -/

namespace Sys2Proof.Machine

@[simp] theorem respond_roms (s : State) (st : Status) (o : OutPorts) : (s.respond st o).roms = s.roms := rfl
@[simp] theorem respond_op (s : State) (st : Status) (o : OutPorts) : (s.respond st o).op = s.op := rfl
@[simp] theorem respond_inp (s : State) (st : Status) (o : OutPorts) : (s.respond st o).inp = s.inp := rfl
@[simp] theorem respond_datapath (s : State) (st : Status) (o : OutPorts) : (s.respond st o).datapath = {} := rfl
@[simp] theorem respond_status (s : State) (st : Status) (o : OutPorts) : (s.respond st o).status = some st := rfl
@[simp] theorem respond_outp (s : State) (st : Status) (o : OutPorts) : (s.respond st o).outp = o := rfl
@[simp] theorem respond_queue (s : State) (st : Status) (o : OutPorts) : (s.respond st o).queue = s.queue := rfl
@[simp] theorem respond_buffers (s : State) (st : Status) (o : OutPorts) : (s.respond st o).buffers = s.buffers := rfl

@[simp] theorem issue_roms (s : State) (i : Instr) (v : List Bytes) : (s.issue i v).roms = s.roms := rfl
@[simp] theorem issue_op (s : State) (i : Instr) (v : List Bytes) : (s.issue i v).op = some (opCode i) := rfl
@[simp] theorem issue_inp (s : State) (i : Instr) (v : List Bytes) : (s.issue i v).inp = loadPorts i.format v := rfl
@[simp] theorem issue_datapath (s : State) (i : Instr) (v : List Bytes) : (s.issue i v).datapath = {} := rfl
@[simp] theorem issue_status (s : State) (i : Instr) (v : List Bytes) : (s.issue i v).status = none := rfl
@[simp] theorem issue_outp (s : State) (i : Instr) (v : List Bytes) : (s.issue i v).outp = {} := rfl
@[simp] theorem issue_queue (s : State) (i : Instr) (v : List Bytes) : (s.issue i v).queue = s.queue := rfl
@[simp] theorem issue_buffers (s : State) (i : Instr) (v : List Bytes) : (s.issue i v).buffers = s.buffers := rfl

@[simp] theorem assertReset_roms (s : State) : s.assertReset.roms = s.roms := rfl
@[simp] theorem assertReset_op (s : State) : s.assertReset.op = none := rfl
@[simp] theorem assertReset_inp (s : State) : s.assertReset.inp = {} := rfl
@[simp] theorem assertReset_datapath (s : State) : s.assertReset.datapath = {} := rfl
@[simp] theorem assertReset_status (s : State) : s.assertReset.status = none := rfl
@[simp] theorem assertReset_outp (s : State) : s.assertReset.outp = {} := rfl
@[simp] theorem assertReset_queue (s : State) : s.assertReset.queue = s.queue := rfl
@[simp] theorem assertReset_buffers (s : State) : s.assertReset.buffers = s.buffers := rfl

@[simp] theorem store_roms (s : State) (n : Nat) (r : Response) : (s.store n r).roms = s.roms := rfl
@[simp] theorem store_op (s : State) (n : Nat) (r : Response) : (s.store n r).op = s.op := rfl
@[simp] theorem store_inp (s : State) (n : Nat) (r : Response) : (s.store n r).inp = s.inp := rfl
@[simp] theorem store_datapath (s : State) (n : Nat) (r : Response) : (s.store n r).datapath = s.datapath := rfl
@[simp] theorem store_status (s : State) (n : Nat) (r : Response) : (s.store n r).status = s.status := rfl
@[simp] theorem store_outp (s : State) (n : Nat) (r : Response) : (s.store n r).outp = s.outp := rfl
@[simp] theorem store_queue (s : State) (n : Nat) (r : Response) : (s.store n r).queue = s.queue := rfl
@[simp] theorem store_buffers (s : State) (n : Nat) (r : Response) : (s.store n r).buffers = bufferPut s.buffers n r := rfl

@[simp] theorem withQueue_roms (s : State) (q : List HostEvent) : (s.withQueue q).roms = s.roms := rfl
@[simp] theorem withQueue_op (s : State) (q : List HostEvent) : (s.withQueue q).op = s.op := rfl
@[simp] theorem withQueue_inp (s : State) (q : List HostEvent) : (s.withQueue q).inp = s.inp := rfl
@[simp] theorem withQueue_datapath (s : State) (q : List HostEvent) : (s.withQueue q).datapath = s.datapath := rfl
@[simp] theorem withQueue_status (s : State) (q : List HostEvent) : (s.withQueue q).status = s.status := rfl
@[simp] theorem withQueue_outp (s : State) (q : List HostEvent) : (s.withQueue q).outp = s.outp := rfl
@[simp] theorem withQueue_queue (s : State) (q : List HostEvent) : (s.withQueue q).queue = q := rfl
@[simp] theorem withQueue_buffers (s : State) (q : List HostEvent) : (s.withQueue q).buffers = s.buffers := rfl

@[simp] theorem withPort_roms (s : State) (n : PortName) (v : Bytes) : (s.withPort n v).roms = s.roms := rfl
@[simp] theorem withPort_op (s : State) (n : PortName) (v : Bytes) : (s.withPort n v).op = s.op := rfl
@[simp] theorem withPort_inp (s : State) (n : PortName) (v : Bytes) : (s.withPort n v).inp = s.inp.set n v := rfl
@[simp] theorem withPort_datapath (s : State) (n : PortName) (v : Bytes) : (s.withPort n v).datapath = s.datapath := rfl
@[simp] theorem withPort_status (s : State) (n : PortName) (v : Bytes) : (s.withPort n v).status = s.status := rfl
@[simp] theorem withPort_outp (s : State) (n : PortName) (v : Bytes) : (s.withPort n v).outp = s.outp := rfl
@[simp] theorem withPort_queue (s : State) (n : PortName) (v : Bytes) : (s.withPort n v).queue = s.queue := rfl
@[simp] theorem withPort_buffers (s : State) (n : PortName) (v : Bytes) : (s.withPort n v).buffers = s.buffers := rfl

/-- A second response replaces the first: nothing of an earlier transaction's answer is left. -/
@[simp] theorem respond_respond (s : State) (st st' : Status) (o o' : OutPorts) :
    (s.respond st o).respond st' o' = s.respond st' o' := rfl

/-- What the host stores of a response. -/
@[simp] theorem response_respond (s : State) (st : Status) (o : OutPorts) :
    (s.respond st o).response = some ⟨st, o.value⟩ := rfl

end Sys2Proof.Machine
end

