-- ==== Sys2Proof/Laws/Ops.lean ====
section
/-! SUPPORT. What each shared operation can do, said once. A prover cites these and does not unfold the operation. -/

namespace Sys2Proof.Machine

/-! Ports. -/

@[simp] theorem onByte_some (x : Byte) (k : Byte → Result) : onByte (some [x]) k = k x := rfl

/-- A `Bytes(1)` port is read, or the transaction is refused. -/
theorem onByte_cases (port : Option Bytes) (k : Byte → Result) :
    (∃ x, port = some [x] ∧ onByte port k = k x) ∨ onByte port k = .refused .illFormedOperands := by
  match port with
  | some [x] => exact .inl ⟨x, rfl, rfl⟩
  | none => exact .inr rfl
  | some [] => exact .inr rfl
  | some (_ :: _ :: _) => exact .inr rfl

theorem onFixed_some {n : Nat} {B : Bytes} (h : B.length = n) (k : Bytes → Result) :
    onFixed n (some B) k = k B := by
  simp [onFixed, h]

/-- A `Bytes(n)` port is read, or the transaction is refused. -/
theorem onFixed_cases (n : Nat) (port : Option Bytes) (k : Bytes → Result) :
    (∃ B, port = some B ∧ B.length = n ∧ onFixed n port k = k B) ∨
      onFixed n port k = .refused .illFormedOperands := by
  cases port with
  | none => exact .inr rfl
  | some B =>
    by_cases h : B.length = n
    · exact .inl ⟨B, rfl, h, onFixed_some h k⟩
    · exact .inr (by simp [onFixed, h])

@[simp] theorem onPort_some (B : Bytes) (k : Bytes → Result) : onPort (some B) k = k B := rfl

/-- A `Bytes(*)` port is read, or the transaction is refused. -/
theorem onPort_cases (port : Option Bytes) (k : Bytes → Result) :
    (∃ B, port = some B ∧ onPort port k = k B) ∨ onPort port k = .refused .illFormedOperands := by
  cases port with
  | none => exact .inr rfl
  | some B => exact .inl ⟨B, rfl, rfl⟩

/-! The end of a transaction. -/

@[simp] theorem complete_eq (o : OutPorts) (s : State) : complete o s = .next (s.respond .ok o) := rfl

@[simp] theorem raise_eq (e : Error) (s : State) : raise e s = .next (s.respond (.err e) {}) := rfl

@[simp] theorem whenValid_ok {α : Type} (x : α) (s : State) (k : α → Result) : whenValid (.ok x) s k = k x := rfl

@[simp] theorem whenValid_error {α : Type} (e : Error) (s : State) (k : α → Result) :
    whenValid (.error e) s k = .next (s.respond (.err e) {}) := rfl

/-- The checks pass and the operation goes on, or the transaction ends with the error and nothing else. -/
theorem whenValid_cases {α : Type} (check : Except Error α) (s : State) (k : α → Result) :
    (∃ x, check = .ok x ∧ whenValid check s k = k x) ∨
      ∃ e, check = .error e ∧ whenValid check s k = .next (s.respond (.err e) {}) := by
  cases check with
  | ok x => exact .inl ⟨x, rfl, rfl⟩
  | error e => exact .inr ⟨e, rfl, rfl⟩

/-! What an outcome that is a next state looks like: it is the state with a response, and the response meets a property.
Each shared operation passes the property on, so a property of every answer of an operation is a few citations. -/

/-- Every next state of `r` is `s` with a response that meets `P`. -/
def EndsWith (s : State) (P : Status → OutPorts → Prop) (r : Result) : Prop :=
  ∀ t, r = .next t → ∃ st o, t = s.respond st o ∧ P st o

theorem endsWith_respond {s : State} {P : Status → OutPorts → Prop} {st : Status} {o : OutPorts} (h : P st o) :
    EndsWith s P (.next (s.respond st o)) := by
  intro t ht
  cases ht
  exact ⟨st, o, rfl, h⟩

theorem endsWith_complete {s : State} {P : Status → OutPorts → Prop} {o : OutPorts} (h : P .ok o) :
    EndsWith s P (complete o s) := endsWith_respond h

theorem endsWith_fault {s : State} {P : Status → OutPorts → Prop} (f : Fault) : EndsWith s P (.fault f) := by
  intro t ht
  cases ht

theorem endsWith_refused {s : State} {P : Status → OutPorts → Prop} (r : Refusal) : EndsWith s P (.refused r) := by
  intro t ht
  cases ht

theorem endsWith_onByte {s : State} {P : Status → OutPorts → Prop} {port : Option Bytes} {k : Byte → Result}
    (h : ∀ x, EndsWith s P (k x)) : EndsWith s P (onByte port k) := by
  obtain ⟨x, -, hk⟩ | hk := onByte_cases port k <;> rw [hk]
  · exact h x
  · exact endsWith_refused _

theorem endsWith_onFixed {s : State} {P : Status → OutPorts → Prop} {n : Nat} {port : Option Bytes}
    {k : Bytes → Result} (h : ∀ B, B.length = n → EndsWith s P (k B)) : EndsWith s P (onFixed n port k) := by
  obtain ⟨B, -, hB, hk⟩ | hk := onFixed_cases n port k <;> rw [hk]
  · exact h B hB
  · exact endsWith_refused _

theorem endsWith_onPort {s : State} {P : Status → OutPorts → Prop} {port : Option Bytes} {k : Bytes → Result}
    (h : ∀ B, EndsWith s P (k B)) : EndsWith s P (onPort port k) := by
  obtain ⟨B, -, hk⟩ | hk := onPort_cases port k <;> rw [hk]
  · exact h B
  · exact endsWith_refused _

theorem endsWith_whenValid {α : Type} {s : State} {P : Status → OutPorts → Prop} {check : Except Error α}
    {k : α → Result} (hok : ∀ x, check = .ok x → EndsWith s P (k x))
    (herr : ∀ e, check = .error e → P (.err e) {}) : EndsWith s P (whenValid check s k) := by
  obtain ⟨x, hx, hk⟩ | ⟨e, he, hk⟩ := whenValid_cases check s k <;> rw [hk]
  · exact hok x hx
  · exact endsWith_respond (herr e he)

/-! The checks. -/

@[simp] theorem thenCheck_error {α β : Type} (e : Error) (b : Except Error β) :
    thenCheck (.error e : Except Error α) b = .error e := rfl

@[simp] theorem thenCheck_ok_error {α β : Type} (x : α) (e : Error) :
    thenCheck (.ok x) (.error e : Except Error β) = .error e := rfl

@[simp] theorem thenCheck_ok_ok {α β : Type} (x : α) (y : β) : thenCheck (.ok x : Except Error α) (.ok y) = .ok x := rfl

/-- Two checks in order pass exactly where both pass. -/
theorem thenCheck_eq_ok {α β : Type} {a : Except Error α} {b : Except Error β} {x : α} :
    thenCheck a b = .ok x ↔ a = .ok x ∧ ∃ y, b = .ok y := by
  cases a <;> cases b <;> simp

/-- The first of two checks that fails is the one reported. -/
theorem thenCheck_eq_error {α β : Type} {a : Except Error α} {b : Except Error β} {e : Error} :
    thenCheck a b = .error e ↔ a = .error e ∨ (∃ x, a = .ok x) ∧ b = .error e := by
  cases a <;> cases b <;> simp

/-- The key's length is the selected variant's. -/
theorem variantOf_eq_ok {key : Bytes} {v : Variant} : variantOf key = .ok v ↔ key.length = v.keyBytes := by
  cases v <;> unfold variantOf <;> simp only [Variant.keyBytes] <;> split_ifs <;> simp <;> omega

/-- The only key error, and exactly when. -/
theorem variantOf_eq_error {key : Bytes} {e : Error} :
    variantOf key = .error e ↔
      e = .invalidKeyLength ∧ key.length ≠ 16 ∧ key.length ≠ 24 ∧ key.length ≠ 32 := by
  unfold variantOf
  split_ifs <;> simp_all [eq_comm]

theorem checkBlock_eq_ok {block : Bytes} {u : Unit} : checkBlock block = .ok u ↔ block.length = 16 := by
  unfold checkBlock
  split_ifs <;> simp_all

theorem checkBlock_eq_error {block : Bytes} {e : Error} :
    checkBlock block = .error e ↔ e = .invalidBlockLength ∧ block.length ≠ 16 := by
  unfold checkBlock
  split_ifs <;> simp_all [eq_comm]

theorem checkNonEmpty_eq_ok {msg : Bytes} {u : Unit} : checkNonEmpty msg = .ok u ↔ msg ≠ [] := by
  cases msg <;> simp [checkNonEmpty]

theorem checkNonEmpty_eq_error {msg : Bytes} {e : Error} :
    checkNonEmpty msg = .error e ↔ e = .emptyInput ∧ msg = [] := by
  cases msg <;> simp [checkNonEmpty, eq_comm]

theorem checkWholeBlocks_eq_ok {msg : Bytes} {u : Unit} :
    checkWholeBlocks msg = .ok u ↔ msg.length % 16 = 0 ∧ msg ≠ [] := by
  unfold checkWholeBlocks
  split_ifs with h
  · simp [h]
  · simp [checkNonEmpty_eq_ok]; omega

theorem checkWholeBlocks_eq_error {msg : Bytes} {e : Error} :
    checkWholeBlocks msg = .error e ↔
      (e = .invalidBlockLength ∧ msg.length % 16 ≠ 0) ∨ (e = .emptyInput ∧ msg = []) := by
  unfold checkWholeBlocks
  split_ifs with h
  · have : msg ≠ [] := by rintro rfl; simp at h
    simp [this, h, eq_comm]
  · simp [checkNonEmpty_eq_error, h]

/-! The host's buffers. -/

@[simp] theorem bufferGet_put_self (b : Buffers) (name : Nat) (r : Response) :
    bufferGet (bufferPut b name r) name = some r := by
  induction b with
  | nil => simp [bufferPut, bufferGet]
  | cons x rest ih =>
    obtain ⟨n, q⟩ := x
    unfold bufferPut
    split_ifs with h1 h2
    · simp [bufferGet]
    · simp [bufferGet]
    · simp [bufferGet, Ne.symm h2, ih]

theorem bufferGet_put_other (b : Buffers) {name other : Nat} (r : Response) (h : other ≠ name) :
    bufferGet (bufferPut b name r) other = bufferGet b other := by
  induction b with
  | nil => simp [bufferPut, bufferGet, Ne.symm h]
  | cons x rest ih =>
    obtain ⟨n, q⟩ := x
    unfold bufferPut
    split_ifs with h1 h2
    · simp [bufferGet, Ne.symm h]
    · subst h2
      simp [bufferGet, Ne.symm h]
    · simp [bufferGet, ih]

/-- A stored entry is the new one or an old one. -/
theorem mem_bufferPut {b : Buffers} {name : Nat} {r : Response} {x : Nat × Response}
    (h : x ∈ bufferPut b name r) : x = (name, r) ∨ x ∈ b := by
  induction b with
  | nil => simpa [bufferPut] using h
  | cons y rest ih =>
    obtain ⟨n, q⟩ := y
    unfold bufferPut at h
    split_ifs at h with h1 h2
    · simpa using h
    · rcases List.mem_cons.1 h with h | h
      · exact .inl h
      · exact .inr (List.mem_cons_of_mem _ h)
    · rcases List.mem_cons.1 h with h | h
      · exact .inr (h ▸ List.mem_cons_self)
      · exact (ih h).imp id (List.mem_cons_of_mem _)

/-- Storing keeps the canonical form. -/
theorem bufferPut_wf {b : Buffers} (h : Buffers.wf b) (name : Nat) (r : Response) : Buffers.wf (bufferPut b name r) := by
  induction b with
  | nil => simp [bufferPut, Buffers.wf]
  | cons y rest ih =>
    obtain ⟨n, q⟩ := y
    obtain ⟨hlt, hrest⟩ := List.pairwise_cons.1 h
    unfold bufferPut
    split_ifs with h1 h2
    · refine List.pairwise_cons.2 ⟨fun x hx => ?_, h⟩
      rcases List.mem_cons.1 hx with rfl | hx
      · exact h1
      · exact h1.trans (hlt x hx)
    · subst h2
      exact List.pairwise_cons.2 ⟨hlt, hrest⟩
    · refine List.pairwise_cons.2 ⟨fun x hx => ?_, ih hrest⟩
      rcases mem_bufferPut hx with rfl | hx
      · exact lt_of_le_of_ne (not_lt.1 h1) (Ne.symm h2)
      · exact hlt x hx

theorem reset_buffers_wf : Buffers.wf State.reset.buffers := List.Pairwise.nil

/-- Stores under two names commute: equal maps are equal lists. -/
theorem bufferPut_comm {b : Buffers} {m n : Nat} (q r : Response) (h : m ≠ n) :
    bufferPut (bufferPut b m q) n r = bufferPut (bufferPut b n r) m q := by
  induction b with
  | nil =>
    simp only [bufferPut]
    split_ifs <;> first | rfl | omega
  | cons y rest ih =>
    obtain ⟨k, p⟩ := y
    simp only [bufferPut]
    split_ifs <;> simp only [bufferPut] <;> split_ifs <;> first | rfl | omega | simp_all

/-! The host stores a response, and the fetch. -/

@[simp] theorem collect_fault (dst : Nat) (f : Fault) : collect dst (.fault f) = .fault f := rfl
@[simp] theorem collect_refused (dst : Nat) (f : Refusal) : collect dst (.refused f) = .refused f := rfl

@[simp] theorem collect_respond (dst : Nat) (s : State) (st : Status) (o : OutPorts) :
    collect dst (.next (s.respond st o)) =
      .next ((s.respond st o).store dst ⟨st, o.value⟩) := rfl

/-- A state that has a response hands it to the host; one that has none is left as it is. -/
theorem collect_next (dst : Nat) (u : State) :
    (∃ r, u.response = some r ∧ collect dst (.next u) = .next (u.store dst r)) ∨
      (u.response = none ∧ collect dst (.next u) = .next u) := by
  simp only [collect]
  split
  · exact .inl ⟨_, ‹_›, rfl⟩
  · exact .inr ⟨‹_›, rfl⟩

/-- A next state after `collect` comes from a next state before it. -/
theorem collect_eq_next {dst : Nat} {r : Result} {t : State} (h : collect dst r = .next t) :
    ∃ u, r = .next u ∧
      ((∃ resp, u.response = some resp ∧ t = u.store dst resp) ∨ (u.response = none ∧ t = u)) := by
  cases r with
  | fault f => cases h
  | refused f => cases h
  | next u =>
    refine ⟨u, rfl, ?_⟩
    obtain ⟨resp, hr, hc⟩ | ⟨hr, hc⟩ := collect_next dst u <;> rw [hc] at h <;> cases h
    · exact .inl ⟨resp, hr, rfl⟩
    · exact .inr ⟨hr, rfl⟩

theorem collect_eq_fault {dst : Nat} {r : Result} {f : Fault} : collect dst r = .fault f ↔ r = .fault f := by
  cases r with
  | next u => obtain ⟨_, -, hc⟩ | ⟨-, hc⟩ := collect_next dst u <;> simp [hc]
  | fault g => simp
  | refused g => simp

theorem collect_eq_refused {dst : Nat} {r : Result} {f : Refusal} : collect dst r = .refused f ↔ r = .refused f := by
  cases r with
  | next u => obtain ⟨_, -, hc⟩ | ⟨-, hc⟩ := collect_next dst u <;> simp [hc]
  | fault g => simp
  | refused g => simp

/-- A one-byte decode is the opcode map's. -/
theorem decode_singleton (op : Byte) :
    decode [op] = match decodeOp op with
      | some i => .ok (i, [])
      | none => .error (.unassigned op) := rfl

/-- What presenting a transaction can find. -/
theorem present_cases (c : Command) (s : State) :
    (decodeOp c.op = none ∧ present c s = .refuse (.unassignedOp c.op)) ∨
    ∃ i, decodeOp c.op = some i ∧
      ((resolveAll s.buffers c.srcs = none ∧ present c s = .refuse .operandWithoutValue) ∨
        ∃ v, resolveAll s.buffers c.srcs = some v ∧
          ((wellFormed i v = true ∧ present c s = .run c.dst i (s.issue i v)) ∨
            (wellFormed i v = false ∧ present c s = .refuse .illFormedOperands))) := by
  unfold present
  rw [decode_singleton]
  cases decodeOp c.op with
  | none => exact .inl ⟨rfl, rfl⟩
  | some i =>
    refine .inr ⟨i, rfl, ?_⟩
    cases hv : resolveAll s.buffers c.srcs with
    | none => exact .inl ⟨rfl, rfl⟩
    | some v =>
      refine .inr ⟨v, rfl, ?_⟩
      cases hw : wellFormed i v with
      | true => exact .inl ⟨rfl, by simp [hw]⟩
      | false => exact .inr ⟨rfl, by simp [hw]⟩

theorem fetch_idle {s : State} (h : s.queue = []) : fetch s = .idle := by
  simp [fetch, h]

theorem fetch_reset {s : State} {running : Option Command} {rest : List HostEvent}
    (h : s.queue = .reset running :: rest) : fetch s = .reset (s.withQueue rest).assertReset := by
  simp [fetch, h]

theorem fetch_issue {s : State} {c : Command} {rest : List HostEvent}
    (h : s.queue = .issue c :: rest) : fetch s = present c (s.withQueue rest) := by
  simp [fetch, h]

end Sys2Proof.Machine
end

