-- ==== Sys2Proof/Laws/Word.lean ====
section
/-! SUPPORT. Words and the State Matrix: reading what was built, extensionality by `get`, and the algebra of XOR. -/

namespace Sys2Proof

@[simp] theorem Word.get_ofFn (f : Fin 4 → Byte) (k : Fin 4) : (Word.ofFn f).get k = f k := by
  fin_cases k <;> rfl

@[simp] theorem Word.ofFn_get (w : Word) : Word.ofFn w.get = w := rfl

theorem Word.ext_get {v w : Word} (h : ∀ k, v.get k = w.get k) : v = w := by
  rw [← Word.ofFn_get v, ← Word.ofFn_get w, funext h]

@[simp] theorem Word.get_xor (v w : Word) (k : Fin 4) : (v.xor w).get k = v.get k ^^^ w.get k := by
  fin_cases k <;> rfl

@[simp] theorem Word.get_zero (k : Fin 4) : Word.zero.get k = 0 := by
  fin_cases k <;> rfl

theorem Word.xor_comm (v w : Word) : v.xor w = w.xor v :=
  Word.ext_get fun k => by simp [BitVec.xor_comm]

theorem Word.xor_assoc (u v w : Word) : (u.xor v).xor w = u.xor (v.xor w) :=
  Word.ext_get fun k => by simp [BitVec.xor_assoc]

@[simp] theorem Word.xor_self (w : Word) : w.xor w = Word.zero :=
  Word.ext_get fun k => by simp

@[simp] theorem Word.xor_zero (w : Word) : w.xor Word.zero = w :=
  Word.ext_get fun k => by simp

@[simp] theorem Word.length_toBytes (w : Word) : w.toBytes.length = 4 := rfl

@[simp] theorem StateMatrix.col_ofFn (f : Fin 4 → Fin 4 → Byte) (c : Fin 4) :
    (StateMatrix.ofFn f).col c = Word.ofFn fun r => f r c := by
  fin_cases c <;> rfl

@[simp] theorem StateMatrix.get_ofFn (f : Fin 4 → Fin 4 → Byte) (r c : Fin 4) :
    (StateMatrix.ofFn f).get r c = f r c := by
  simp [StateMatrix.get]

@[simp] theorem StateMatrix.ofFn_get (S : StateMatrix) : StateMatrix.ofFn S.get = S := rfl

theorem StateMatrix.ext_get {S T : StateMatrix} (h : ∀ r c, S.get r c = T.get r c) : S = T := by
  have : S.get = T.get := funext fun r => funext fun c => h r c
  rw [← StateMatrix.ofFn_get S, this, StateMatrix.ofFn_get]

end Sys2Proof
end

