-- ==== Sys2Proof/Laws/Operands.lean ====
section
/-! SUPPORT. Byte sequences: lengths, slices, XOR, the State Matrix of a block, and the split of a message into blocks. -/

namespace Sys2Proof.Machine

@[simp] theorem length_slice (B : Bytes) (lo hi : Nat) : (slice B lo hi).length = min (hi - lo) (B.length - lo) := by
  simp [slice]

theorem getElem?_slice (B : Bytes) (lo hi i : Nat) : (slice B lo hi)[i]? = if i < hi - lo then B[lo + i]? else none := by
  simp [slice, List.getElem?_take, List.getElem?_drop]

@[simp] theorem length_xorBytes (A B : Bytes) : (xorBytes A B).length = min A.length B.length := by
  simp [xorBytes]

theorem getElem?_xorBytes (A B : Bytes) (i : Nat) :
    (xorBytes A B)[i]? = (A[i]?).bind fun x => (B[i]?).map fun y => x ^^^ y := by
  simp only [xorBytes, List.getElem?_zipWith]
  cases A[i]? <;> cases B[i]? <;> rfl

theorem xorBytes_comm (A B : Bytes) : xorBytes A B = xorBytes B A := by
  unfold xorBytes
  rw [List.zipWith_comm]
  simp [BitVec.xor_comm]

/-- XOR with the same sequence twice cancels. -/
theorem xorBytes_cancel {A B : Bytes} (h : A.length ≤ B.length) : xorBytes (xorBytes A B) B = A := by
  induction A generalizing B with
  | nil => simp [xorBytes]
  | cons a A ih =>
    cases B with
    | nil => simp at h
    | cons b B => simpa [xorBytes] using ih (by simpa using h)

@[simp] theorem length_zeros (k : Nat) : (zeros k).length = k := by simp [zeros]

@[simp] theorem length_fromState (S : StateMatrix) : (fromState S).length = 16 := rfl

/-- A 16-byte sequence is its 16 bytes. -/
theorem length_sixteen {B : Bytes} (h : B.length = 16) :
    ∃ x0 x1 x2 x3 x4 x5 x6 x7 x8 x9 x10 x11 x12 x13 x14 x15 : Byte,
      B = [x0, x1, x2, x3, x4, x5, x6, x7, x8, x9, x10, x11, x12, x13, x14, x15] := by
  match B, h with
  | [x0, x1, x2, x3, x4, x5, x6, x7, x8, x9, x10, x11, x12, x13, x14, x15], _ =>
    exact ⟨x0, x1, x2, x3, x4, x5, x6, x7, x8, x9, x10, x11, x12, x13, x14, x15, rfl⟩

/-- `S[r][c]` of a block is its byte 4c + r. -/
theorem toState_get (B : Bytes) (r c : Fin 4) : (toState B).get r c = B.getD (4 * c.val + r.val) 0 := by
  simp [toState]

/-- The blocks of a sequence: how many. -/
@[simp] theorem length_blocksOf (M : Bytes) : (blocksOf M).length = (M.length + 15) / 16 := by
  simp [blocksOf]

@[simp] theorem blocksOf_nil : blocksOf [] = [] := rfl

/-- Block b of a sequence. -/
theorem getElem?_blocksOf (M : Bytes) (b : Nat) :
    (blocksOf M)[b]? = if b < (M.length + 15) / 16 then some (slice M (16 * b) (min (16 * b + 16) M.length)) else none := by
  simp only [blocksOf, List.getElem?_map]
  split_ifs with h
  · simp [h]
  · simp [h]

/-- A sequence of at least 16 bytes: its first block, and the blocks of the rest. -/
theorem blocksOf_append {X : Bytes} (hX : X.length = 16) (M : Bytes) : blocksOf (X ++ M) = X :: blocksOf M := by
  apply List.ext_getElem?
  intro b
  rw [getElem?_blocksOf]
  cases b with
  | zero =>
    have : slice (X ++ M) 0 16 = X := by simp [slice, hX]
    simp [hX, this]
  | succ b =>
    rw [List.getElem?_cons_succ, getElem?_blocksOf]
    have h : (X ++ M).length = 16 + M.length := by simp [hX]
    have hd : (X ++ M).drop (16 * (b + 1)) = M.drop (16 * b) := by
      rw [List.drop_append, List.drop_eq_nil_of_le (by omega), hX]
      simp only [List.nil_append]
      congr 1
    have hlen : min (16 * (b + 1) + 16) (16 + M.length) - 16 * (b + 1) = min (16 * b + 16) M.length - 16 * b := by omega
    have hb : (b + 1 < (16 + M.length + 15) / 16) = (b < (M.length + 15) / 16) := by
      apply propext
      omega
    simp only [h, slice, hd, hlen, hb]

/-- A sequence of 1 to 16 bytes is one block. -/
theorem blocksOf_short {M : Bytes} (h0 : M ≠ []) (h : M.length ≤ 16) : blocksOf M = [M] := by
  have hpos : 0 < M.length := List.length_pos_iff.2 h0
  have hn : (M.length + 15) / 16 = 1 := by omega
  have hm : min 16 M.length = M.length := by omega
  simp [blocksOf, hn, slice, hm]

end Sys2Proof.Machine
end

