-- ==== Sys2Proof/Laws/Cipher.lean ====
section
/-! SUPPORT. The transforms byte by byte, the length of the schedule, and that no default is ever read: every index of the
schedule and of `RCON_ROM` that an operation reads is in range (R27, R161). -/

namespace Sys2Proof.Machine

@[simp] theorem subBytes_get (m : Roms) (S : StateMatrix) (r c : Fin 4) :
    (subBytes m S).get r c = m.sboxAt (S.get r c) := by
  simp [subBytes]

@[simp] theorem invSubBytes_get (m : Roms) (S : StateMatrix) (r c : Fin 4) :
    (invSubBytes m S).get r c = m.invSboxAt (S.get r c) := by
  simp [invSubBytes]

@[simp] theorem shiftRows_get (S : StateMatrix) (r c : Fin 4) : (shiftRows S).get r c = S.get r (c + r) := by
  simp [shiftRows]

@[simp] theorem invShiftRows_get (S : StateMatrix) (r c : Fin 4) : (invShiftRows S).get r c = S.get r (c - r) := by
  simp [invShiftRows]

@[simp] theorem addRoundKey_get (W : List Word) (n : Nat) (S : StateMatrix) (r c : Fin 4) :
    (addRoundKey W n S).get r c = S.get r c ^^^ (wordAt W (4 * n + c.val)).get r := by
  simp [addRoundKey]

/-- The transforms act column by column through `mixColumn`. -/
@[simp] theorem mixColumns_col (S : StateMatrix) (c : Fin 4) : (mixColumns S).col c = mixColumn (S.col c) := by
  fin_cases c <;> rfl

@[simp] theorem invMixColumns_col (S : StateMatrix) (c : Fin 4) :
    (invMixColumns S).col c = invMixColumn (S.col c) := by
  fin_cases c <;> rfl

/-- The end of an unpadding operation: the message, or the fault. -/
theorem finishUnpadded_cases (P : Bytes) (s : State) :
    (∃ M, unpad P = some M ∧ finishUnpadded P s = .next (s.respond .ok { out := some M })) ∨
      (unpad P = none ∧ finishUnpadded P s = .fault .unpadUnderflow) := by
  unfold finishUnpadded
  cases unpad P with
  | some M => exact .inl ⟨M, rfl, rfl⟩
  | none => exact .inr ⟨rfl, rfl⟩

theorem endsWith_finishUnpadded {s : State} {Q : Status → OutPorts → Prop} {P : Bytes}
    (h : ∀ M, Q .ok { out := some M }) : EndsWith s Q (finishUnpadded P s) := by
  obtain ⟨M, -, hk⟩ | ⟨-, hk⟩ := finishUnpadded_cases P s <;> rw [hk]
  · exact endsWith_respond (h M)
  · exact endsWith_fault _

/-- The index of `RCON_ROM` a schedule reads is in its domain. -/
theorem rconAt_isSome {m : Roms} {i : Nat} (h : 1 ≤ i ∧ i ≤ 10) : (m.rconAt i).isSome := by
  simp [Roms.rconAt, h]

theorem schedule_rcon_index (v : Variant) {i : Nat} (h0 : v.keyColumns ≤ i) (h1 : i < v.scheduleWords) :
    1 ≤ i / v.keyColumns ∧ i / v.keyColumns ≤ 10 := by
  cases v <;> simp only [Variant.keyColumns, Variant.scheduleWords, Variant.rounds] at * <;> omega

@[simp] theorem length_seedColumns (n : Nat) (key : Bytes) : (seedColumns n key).length = n := by
  simp [seedColumns]

/-- Expansion adds one column a step. -/
theorem length_expand (m : Roms) (n : Nat) (is : List Nat) (W : List Word) :
    (is.foldl (expandStep m n) W).length = W.length + is.length := by
  induction is generalizing W with
  | nil => rfl
  | cons i is ih => simp [ih, expandStep]; omega

/-- A schedule has exactly its variant's words. -/
@[simp] theorem length_keySchedule (m : Roms) (v : Variant) (key : Bytes) :
    (keySchedule m v key).length = v.scheduleWords := by
  cases v <;> simp [keySchedule, length_expand, Variant.keyColumns, Variant.scheduleWords, Variant.rounds]

/-- Every word a round reads is in the schedule. -/
theorem roundKey_index (m : Roms) (v : Variant) (key : Bytes) {rnd : Nat} (h : rnd ≤ v.rounds) (c : Fin 4) :
    4 * rnd + c.val < (keySchedule m v key).length := by
  rw [length_keySchedule, Variant.scheduleWords]
  omega

@[simp] theorem length_encryptWith (m : Roms) (v : Variant) (key X : Bytes) : (encryptWith m v key X).length = 16 := by
  simp [encryptWith]

@[simp] theorem length_decryptWith (m : Roms) (v : Variant) (key X : Bytes) : (decryptWith m v key X).length = 16 := by
  simp [decryptWith]

@[simp] theorem length_shiftFeedback (F : Bytes) (c : Byte) (h : F ≠ []) : (shiftFeedback F c).length = F.length := by
  have := List.length_pos_iff.2 h
  simp [shiftFeedback]
  omega

@[simp] theorem length_cfbEncrypt (E : Bytes → Bytes) (F msg : Bytes) : (cfbEncrypt E F msg).length = msg.length := by
  induction msg generalizing F with
  | nil => rfl
  | cons x rest ih => simp [cfbEncrypt, ih]

@[simp] theorem length_cfbDecrypt (E : Bytes → Bytes) (F msg : Bytes) : (cfbDecrypt E F msg).length = msg.length := by
  induction msg generalizing F with
  | nil => rfl
  | cons x rest ih => simp [cfbDecrypt, ih]

@[simp] theorem length_counterBlock (hex : BitVec 64 → Vector Byte 8) {iv : Bytes} (h : iv.length = 16) (j : BitVec 64) :
    (counterBlock hex iv j).length = 16 := by
  simp [counterBlock, h]

/-- The default of `HEX_ENCODE_COUNTER` is the 8-byte big-endian binary form of the counter (R8, R44). -/
theorem hexEncodeDefault_bigEndian (n : BitVec 64) : portNumber (hexEncodeDefault n).toList = n.toNat := by
  have h := n.isLt
  simp [portNumber, hexEncodeDefault, Vector.ofFn, Nat.shiftRight_eq_div_pow]
  omega

end Sys2Proof.Machine
end

