-- ==== Sys2Proof/Laws/PerInstr.lean ====
section
/-! SUPPORT. What every op code's shape is, one lemma per constructor of Instr (R60, R61). -/

namespace Sys2Proof

/-- In units 0x1, 0x3 and 0x4, the operations whose direction is inverse (R61). -/
def Laws.isInverse (i : Instr) : Bool :=
  match i with
  | .invSubBytes | .invShiftRows | .invMixColumns | .decryptBlock | .ecbDec | .cbcDec | .cfbDec | .ctrDec => true
  | .sbox | .invSbox | .rcon | .gfmul | .subBytes | .shiftRows | .mixColumns | .ks128 | .ks192 | .ks256 | .expandKey
  | .encryptBlock | .ecbEnc | .cbcEnc | .cfbEnc | .ctrEnc => false

/-- The op code decodes to the operation; its unit is at most 4 and its `func[3]` is 0; and in units 0x1, 0x3 and 0x4
`func[0]` is the direction (R60, R61). -/
def Laws.OpCodeShape.Statement (i : Instr) : Prop :=
  decodeOp (opCode i) = some i ∧ opUnit (opCode i) ≤ 4 ∧ (opFunc (opCode i)).getLsbD 3 = false ∧
    (opUnit (opCode i) = 1 ∨ opUnit (opCode i) = 3 ∨ opUnit (opCode i) = 4 →
      (opFunc (opCode i)).getLsbD 0 = Laws.isInverse i)

theorem Laws.OpCodeShape.sbox : Laws.OpCodeShape.Statement .sbox := by unfold Laws.OpCodeShape.Statement; decide
theorem Laws.OpCodeShape.invSbox : Laws.OpCodeShape.Statement .invSbox := by unfold Laws.OpCodeShape.Statement; decide
theorem Laws.OpCodeShape.rcon : Laws.OpCodeShape.Statement .rcon := by unfold Laws.OpCodeShape.Statement; decide
theorem Laws.OpCodeShape.gfmul : Laws.OpCodeShape.Statement .gfmul := by unfold Laws.OpCodeShape.Statement; decide
theorem Laws.OpCodeShape.subBytes : Laws.OpCodeShape.Statement .subBytes := by unfold Laws.OpCodeShape.Statement; decide
theorem Laws.OpCodeShape.invSubBytes : Laws.OpCodeShape.Statement .invSubBytes := by unfold Laws.OpCodeShape.Statement; decide
theorem Laws.OpCodeShape.shiftRows : Laws.OpCodeShape.Statement .shiftRows := by unfold Laws.OpCodeShape.Statement; decide
theorem Laws.OpCodeShape.invShiftRows : Laws.OpCodeShape.Statement .invShiftRows := by unfold Laws.OpCodeShape.Statement; decide
theorem Laws.OpCodeShape.mixColumns : Laws.OpCodeShape.Statement .mixColumns := by unfold Laws.OpCodeShape.Statement; decide
theorem Laws.OpCodeShape.invMixColumns : Laws.OpCodeShape.Statement .invMixColumns := by unfold Laws.OpCodeShape.Statement; decide
theorem Laws.OpCodeShape.ks128 : Laws.OpCodeShape.Statement .ks128 := by unfold Laws.OpCodeShape.Statement; decide
theorem Laws.OpCodeShape.ks192 : Laws.OpCodeShape.Statement .ks192 := by unfold Laws.OpCodeShape.Statement; decide
theorem Laws.OpCodeShape.ks256 : Laws.OpCodeShape.Statement .ks256 := by unfold Laws.OpCodeShape.Statement; decide
theorem Laws.OpCodeShape.expandKey : Laws.OpCodeShape.Statement .expandKey := by unfold Laws.OpCodeShape.Statement; decide
theorem Laws.OpCodeShape.encryptBlock : Laws.OpCodeShape.Statement .encryptBlock := by unfold Laws.OpCodeShape.Statement; decide
theorem Laws.OpCodeShape.decryptBlock : Laws.OpCodeShape.Statement .decryptBlock := by unfold Laws.OpCodeShape.Statement; decide
theorem Laws.OpCodeShape.ecbEnc : Laws.OpCodeShape.Statement .ecbEnc := by unfold Laws.OpCodeShape.Statement; decide
theorem Laws.OpCodeShape.ecbDec : Laws.OpCodeShape.Statement .ecbDec := by unfold Laws.OpCodeShape.Statement; decide
theorem Laws.OpCodeShape.cbcEnc : Laws.OpCodeShape.Statement .cbcEnc := by unfold Laws.OpCodeShape.Statement; decide
theorem Laws.OpCodeShape.cbcDec : Laws.OpCodeShape.Statement .cbcDec := by unfold Laws.OpCodeShape.Statement; decide
theorem Laws.OpCodeShape.cfbEnc : Laws.OpCodeShape.Statement .cfbEnc := by unfold Laws.OpCodeShape.Statement; decide
theorem Laws.OpCodeShape.cfbDec : Laws.OpCodeShape.Statement .cfbDec := by unfold Laws.OpCodeShape.Statement; decide
theorem Laws.OpCodeShape.ctrEnc : Laws.OpCodeShape.Statement .ctrEnc := by unfold Laws.OpCodeShape.Statement; decide
theorem Laws.OpCodeShape.ctrDec : Laws.OpCodeShape.Statement .ctrDec := by unfold Laws.OpCodeShape.Statement; decide

end Sys2Proof
end

