-- ==== Sys2Proof/Tests/Slice0.lean ====
section
/-! SUPPORT. Tests of the model against words and vectors written out from spec/ (30_encoding.md R63; the examples of the
operation rules; 95_test_vectors.md), and a witness of the hypotheses of every statement that has some. -/

namespace Sys2Proof.Tests

-- Each theorem checked in its turn: side by side, their threads' stacks alone reserve many gigabytes.
set_option Elab.async false

open Sys2Proof.Machine

/-- The n bytes of a number, byte 0 the most significant (R44): how a hex vector is written here. -/
def be (n x : Nat) : Bytes := (List.range n).map fun i => BitVec.ofNat 8 (x >>> (8 * (n - 1 - i)))

/-- The status and the value an operation answers on its operands after reset. -/
def answer (i : Instr) (operands : List Bytes) : Option (Option Status × Option Bytes) :=
  (next? (exec i (State.reset.issue i operands))).map fun t => (t.status, t.outp.value)

/-- OK with a value. -/
def okValue (v : Bytes) : Option (Option Status × Option Bytes) := some (some .ok, some v)

/-- An error, with no value. -/
def errNone (e : Error) : Option (Option Status × Option Bytes) := some (some (.err e), none)

/-- The word W[i] a key-schedule operation answers. -/
def wordOf (i : Instr) (key : Bytes) (k : Nat) : Option Word :=
  ((next? (exec i (State.reset.issue i [key]))).bind fun t => t.outp.w).bind fun w => w[k]?

/-- The AES-128 key, the AES-256 key, the 17-byte plaintext and the IV of 95_test_vectors.md. -/
def k : Bytes := be 16 0x2B7E151628AED2A6ABF7158809CF4F3C
def k2 : Bytes := be 32 0x603DEB1015CA71BE2B73AEF0857D77812B7E151628AED2A6ABF7158809CF4F3C
def p17 : Bytes := be 17 0x3343F6A8885A308D313198A2E037010203
def iv : Bytes := be 16 0x000102030405060708090A0B0C0D0E0F

/-! ## Decoding: the op bytes of R63, bit by bit (op[7:4] the unit, op[3:0] the function). -/

theorem test_decode_field : decode [0b00000000] = .ok (.sbox, []) ∧ decode [0b00000001] = .ok (.invSbox, []) ∧
    decode [0b00000010] = .ok (.rcon, []) ∧ decode [0b00000011] = .ok (.gfmul, []) := by decide

theorem test_decode_layers : decode [0b00010000] = .ok (.subBytes, []) ∧ decode [0b00010001] = .ok (.invSubBytes, []) ∧
    decode [0b00010010] = .ok (.shiftRows, []) ∧ decode [0b00010011] = .ok (.invShiftRows, []) ∧
    decode [0b00010100] = .ok (.mixColumns, []) ∧ decode [0b00010101] = .ok (.invMixColumns, []) := by decide

theorem test_decode_key_schedule : decode [0b00100000] = .ok (.ks128, []) ∧ decode [0b00100001] = .ok (.ks192, []) ∧
    decode [0b00100010] = .ok (.ks256, []) ∧ decode [0b00100011] = .ok (.expandKey, []) := by decide

theorem test_decode_block : decode [0b00110000] = .ok (.encryptBlock, []) ∧
    decode [0b00110001] = .ok (.decryptBlock, []) := by decide

theorem test_decode_modes : decode [0b01000000] = .ok (.ecbEnc, []) ∧ decode [0b01000001] = .ok (.ecbDec, []) ∧
    decode [0b01000010] = .ok (.cbcEnc, []) ∧ decode [0b01000011] = .ok (.cbcDec, []) ∧
    decode [0b01000100] = .ok (.cfbEnc, []) ∧ decode [0b01000101] = .ok (.cfbDec, []) ∧
    decode [0b01000110] = .ok (.ctrEnc, []) ∧ decode [0b01000111] = .ok (.ctrDec, []) := by decide

/-- The unassigned codes of L2.11, an empty sequence, and the bytes after the op byte left alone. -/
theorem test_decode_rejects : decode [0x04] = .error (.unassigned 0x04) ∧ decode [0x16] = .error (.unassigned 0x16) ∧
    decode [0x24] = .error (.unassigned 0x24) ∧ decode [0x32] = .error (.unassigned 0x32) ∧
    decode [0x48] = .error (.unassigned 0x48) ∧ decode [0xFF] = .error (.unassigned 0xFF) ∧
    decode [] = .error .noOpByte ∧ decode [0x10, 0xAA] = .ok (.subBytes, [0xAA]) := by decide

/-- The map has no two rows for one op code. -/
theorem test_table_rows_disjoint : opTable.Pairwise fun r q => r.code ≠ q.code := by decide

theorem test_table_word : decodeTableWord 8 0x43 = some .cbcDec ∧ decodeTableWord 8 0x1F = none := by decide

/-- P4's line `GFMUL i, #0x57, #0x83`, with host buffer 9 for i (R66). -/
theorem test_asm_line : asmLine ⟨0x03, 9, [.lit [0x57], .lit [0x83]]⟩ = some "GFMUL b9, #0x57, #0x83" := by
  decide +kernel

/-! ## Well-formedness: an ill-formed term for each check. -/

/-- Check 1, arity: ENCRYPT_BLOCK with its key missing, and SBOX with a second operand. -/
theorem test_arity_refused : arityOk .encryptBlock [zeros 16] = false ∧ arityOk .sbox [[0x53], [0x53]] = false := by decide

/-- Check 2, widths: the three wrong widths of L2.11. -/
theorem test_widths_refused : widthsOk .subBytes [zeros 15] = false ∧ widthsOk .ks128 [zeros 24] = false ∧
    widthsOk .sbox [zeros 2] = false := by decide

/-- `Bytes(*)` ports take any length (R62). -/
theorem test_wellFormed_any_length : wellFormed .ecbDec [zeros 15, zeros 5] = true ∧ wellFormed .expandKey [[]] = true := by
  decide

/-! ## Field primitives (L2.1). -/

theorem test_sbox : answer .sbox [[0x53]] = okValue [0xED] ∧ answer .sbox [[0xFF]] = okValue [0x16] := by decide +kernel

theorem test_invSbox : answer .invSbox [[0xED]] = okValue [0x53] ∧ answer .invSbox [[0x16]] = okValue [0xFF] := by
  decide +kernel

theorem test_rcon : answer .rcon [[0x01]] = okValue [0x01] ∧ answer .rcon [[0x0A]] = okValue [0x36] := by decide +kernel

theorem test_rcon_out_of_domain : fault? (exec .rcon (State.reset.issue .rcon [[0x00]])) = some .rconIndexOutOfDomain ∧
    fault? (exec .rcon (State.reset.issue .rcon [[0x0B]])) = some .rconIndexOutOfDomain ∧
    fault? (exec .rcon (State.reset.issue .rcon [[0xFF]])) = some .rconIndexOutOfDomain := by decide +kernel

theorem test_gfmul : answer .gfmul [[0x57], [0x83]] = okValue [0xC1] ∧ answer .gfmul [[0xFF], [0xFF]] = okValue [0x13] := by
  decide +kernel

/-- The constants' row for 0xFF in L2.1. -/
theorem test_constant_multipliers : mul2 0xFF = 0xE5 ∧ mul3 0xFF = 0x1A ∧ mul9 0xFF = 0x46 ∧ mul11 0xFF = 0xA3 ∧
    mul13 0xFF = 0x97 ∧ mul14 0xFF = 0x8D := by decide

/-! ## State transforms (L2.2). -/

theorem test_subBytes : answer .subBytes [be 16 0x193DE3BEA0F4E22B9AC68D2AE9F84808] =
    okValue (be 16 0xD42711AEE0BF98F1B8B45DE51E415230) := by decide +kernel

theorem test_invSubBytes : answer .invSubBytes [be 16 0xD42711AEE0BF98F1B8B45DE51E415230] =
    okValue (be 16 0x193DE3BEA0F4E22B9AC68D2AE9F84808) := by decide +kernel

theorem test_shiftRows : answer .shiftRows [iv] = okValue (be 16 0x00050A0F04090E03080D02070C01060B) := by decide +kernel

theorem test_invShiftRows : answer .invShiftRows [iv] = okValue (be 16 0x000D0A0704010E0B0805020F0C090603) := by
  decide +kernel

theorem test_mixColumns : answer .mixColumns [be 16 0xD4BF5D30E0B452AEB84111F11E2798E5] =
    okValue (be 16 0x046681E5E0CB199A48F8D37A2806264C) := by decide +kernel

theorem test_invMixColumns : answer .invMixColumns [iv] = okValue (be 16 0x0A0F080D0E0B0C090207000506030401) := by
  decide +kernel

/-! ## Key schedule (R163 to R166, L2.3). -/

theorem test_ks128 : wordOf .ks128 k 4 = some ⟨0xA0, 0xFA, 0xFE, 0x17⟩ ∧ wordOf .ks128 k 43 = some ⟨0xB6, 0x63, 0x0C, 0xA6⟩ ∧
    wordOf .ks128 k 44 = none := by decide +kernel

theorem test_ks192 : wordOf .ks192 (be 24 0x8E73B0F7DA0E6452C810F32B809079E562F8EAD2522C6B7B) 51 =
    some ⟨0x01, 0x00, 0x22, 0x02⟩ := by decide +kernel

/-- W[12] is the i mod 8 = 4 branch. -/
theorem test_ks256 : wordOf .ks256 (be 32 0x603DEB1015CA71BE2B73AEF0857D77811F352C073B6108D72D9810A30914DFF4) 12 =
    some ⟨0xA8, 0xB0, 0x9C, 0x1A⟩ := by decide +kernel

theorem test_expandKey : wordOf .expandKey k2 59 = some ⟨0x40, 0x10, 0xC8, 0xA8⟩ := by decide +kernel

theorem test_expandKey_lengths : answer .expandKey [zeros 15] = errNone .invalidKeyLength ∧
    answer .expandKey [[]] = errNone .invalidKeyLength ∧ answer .expandKey [zeros 33] = errNone .invalidKeyLength := by
  decide +kernel

/-! ## Block cipher (L2.4). -/

theorem test_encryptBlock : answer .encryptBlock [be 16 0x3243F6A8885A308D313198A2E0370734, k] =
    okValue (be 16 0x3925841D02DC09FBDC118597196A0B32) := by decide +kernel

theorem test_encryptBlock_192 : answer .encryptBlock [be 16 0x00112233445566778899AABBCCDDEEFF,
    be 24 0x000102030405060708090A0B0C0D0E0F1011121314151617] =
    okValue (be 16 0xDDA97CA4864CDFE06EAF70A0EC0D7191) := by decide +kernel

theorem test_decryptBlock_256 : answer .decryptBlock [be 16 0x8EA2B7CA516745BFEAFC49904B496089,
    be 32 0x000102030405060708090A0B0C0D0E0F101112131415161718191A1B1C1D1E1F] =
    okValue (be 16 0x00112233445566778899AABBCCDDEEFF) := by decide +kernel

theorem test_block_errors : answer .encryptBlock [zeros 15, k] = errNone .invalidBlockLength ∧
    answer .encryptBlock [zeros 15, zeros 33] = errNone .invalidKeyLength ∧
    answer .decryptBlock [zeros 16, zeros 20] = errNone .invalidKeyLength := by decide +kernel

/-! ## Padding (L2.5). -/

theorem test_pad : pad [] = 0x0F :: zeros 15 ∧ pad [0x41] = [0x41, 0x0E] ++ zeros 14 ∧
    pad (List.replicate 15 0x41) = List.replicate 15 0x41 ++ [0x00] := by decide +kernel

theorem test_unpad : unpad (List.replicate 14 0x41 ++ [0x00, 0x00]) = some (List.replicate 14 0x41) ∧
    unpad (List.replicate 14 0x41 ++ [0x01, 0x00]) = some (List.replicate 14 0x41) ∧
    unpad (List.replicate 13 0x41 ++ [0x01, 0x00, 0x00]) = some (List.replicate 13 0x41 ++ [0x01]) ∧
    unpad (zeros 15) = none ∧ unpad [0x41, 0x03, 0x00, 0x00, 0x00] = some [0x41] ∧
    unpad [0x01, 0x02] = some [0x01, 0x02] := by decide +kernel

/-! ## Modes (L1, L2.6 to L2.10). -/

theorem test_ecbEnc : answer .ecbEnc [k, p17] =
    okValue (be 32 0x15E71CF93937E4158A03CF35ADC4640C9C33D830B68FCBD2CFD59EA63314A320) := by decide +kernel

/-- The genuine 0x01 is lost (L2.8). -/
theorem test_ecbDec_loses_marker : answer .ecbDec [k, be 16 0xE983940713B7EE8AB9737CCC1433273F] =
    okValue (List.replicate 14 0x41) := by decide +kernel

theorem test_ecbDec_underflow : fault? (exec .ecbDec (State.reset.issue .ecbDec
    [k, be 16 0x7DF76B0C1AB899B33E42F047B91B546F])) = some .unpadUnderflow := by decide +kernel

theorem test_cbcEnc : answer .cbcEnc [iv, k2, p17] =
    okValue (be 32 0xD5DEF59D6B08ED48CA2E181EFEB72BF8A86452380955CB3A69643F8B268AE311) := by decide +kernel

theorem test_cbcDec : answer .cbcDec [iv, k, be 32 0xE433360EF87DDD567946C1186C03CA074FFCFB8220A87B1C14A3133844320259] =
    okValue p17 := by decide +kernel

theorem test_cfbEnc : answer .cfbEnc [iv, k, be 18 0x6BC1BEE22E409F96E93D7E117393172AAE2D] =
    okValue (be 18 0x3B79424C9C0DD436BACE9E0ED4586A4F32B9) := by decide +kernel

theorem test_cfbDec : answer .cfbDec [iv, k, be 18 0x3B79424C9C0DD436BACE9E0ED4586A4F32B9] =
    okValue (be 18 0x6BC1BEE22E409F96E93D7E117393172AAE2D) := by decide +kernel

/-- CTR_ENC and CTR_DEC run on the parameter HEX_ENCODE_COUNTER, so a vector is read under its default (L2.10). -/
theorem test_ctr_default : ctrCrypt (encryptWith Roms.standard .aes128 k) hexEncodeDefault iv p17 =
      be 17 0x414C684BF349974588BF0DFFB687F211A7 ∧
    ctrCrypt (encryptWith Roms.standard .aes128 k) hexEncodeDefault iv (zeros 32) =
      be 32 0x720F9EE37B13A7C8B98E955D56B0F313A4311323030EC025F9378C50B39E26DC := by decide +kernel

theorem test_mode_errors : answer .ecbDec [k, zeros 5] = errNone .invalidBlockLength ∧
    answer .ecbDec [k, []] = errNone .emptyInput ∧ answer .ecbDec [zeros 15, zeros 5] = errNone .invalidKeyLength ∧
    answer .cbcDec [zeros 15, k, []] = errNone .invalidBlockLength := by decide +kernel

theorem test_stream_mode_errors : answer .cfbEnc [iv, k, []] = errNone .emptyInput ∧
    answer .cfbDec [zeros 15, k, []] = errNone .invalidBlockLength ∧ answer .cbcEnc [zeros 15, k, [0x41]] =
      errNone .invalidBlockLength ∧ answer .ctrDec [iv, k2, []] = errNone .emptyInput ∧
    answer .ctrEnc [iv, [], []] = errNone .invalidKeyLength := by decide +kernel

/-! ## One step. -/

/-- P4's second line, `SHIFT_ROWS b, a`: the operand is an earlier result, and the response goes under its own name. -/
theorem test_step_takes_earlier_result :
    (next? (step { State.reset with
      queue := [.issue ⟨0x12, 2, [.buf 1]⟩]
      buffers := [(1, ⟨.ok, some (be 16 0xD42711AEE0BF98F1B8B45DE51E415230)⟩)] })).map (·.buffers) =
    some [(1, ⟨.ok, some (be 16 0xD42711AEE0BF98F1B8B45DE51E415230)⟩),
      (2, ⟨.ok, some (be 16 0xD4BF5D30E0B452AEB84111F11E2798E5)⟩)] := by decide +kernel

/-- An operation whose word is placed runs as the first transaction after reset (SBOX of 0x01 is 0x7C, L2.1). -/
theorem test_step_first_word : (next? (step (State.reset.withFetchWord 8 0x00))).map (fun t => (t.status, t.outp.value)) =
    some (some .ok, some [0x7C]) := by decide +kernel

theorem test_step_refuses_unassigned : refusal? (step (State.reset.withFetchWord 8 0x48)) = some (.unassignedOp 0x48) := by
  decide +kernel

/-! ## Witnesses: for each statement with hypotheses, a state and operands that meet all of them. -/

/-- The state after reset with values on the operand ports. -/
def drive (p : InPorts) : State := { State.reset with inp := p }

/-- The state after reset with events queued. -/
def queued (q : List HostEvent) : State := State.reset.withQueue q

theorem exists_next {r : Result} (h : (next? r).isSome = true) : ∃ t, r = .next t := by
  cases r with
  | next t => exact ⟨t, rfl⟩
  | fault f => cases h
  | refused f => cases h

theorem witness_UnassignedCodesAreRefused :
    (queued [.issue ⟨0x04, 0, []⟩]).queue = .issue ⟨0x04, 0, []⟩ :: [] ∧
      ∀ op ∈ ([0x04, 0x0F, 0x16, 0x1F, 0x24, 0x2F, 0x32, 0x3F, 0x48, 0xFF] : List Byte), unassignedOp op := by
  unfold unassignedOp
  exact ⟨rfl, by decide⟩

theorem witness_StepRunsTheDecodedTransaction :
    (queued [.issue ⟨0x12, 0, [.lit iv]⟩]).queue = .issue ⟨0x12, 0, [.lit iv]⟩ :: [] ∧
      decode [0x12] = .ok (.shiftRows, []) ∧ resolveAll [] [.lit iv] = some [iv] ∧ wellFormed .shiftRows [iv] = true := by
  decide +kernel

theorem witness_WrongWidthIsRefused :
    (queued [.issue ⟨0x20, 0, [.lit (zeros 24)]⟩]).queue = .issue ⟨0x20, 0, [.lit (zeros 24)]⟩ :: [] ∧
      decode [0x20] = .ok (.ks128, []) ∧ resolveAll [] [.lit (zeros 24)] = some [zeros 24] ∧
      Instr.ks128.format.ports[0]? = some (.key, .fixed 16) ∧ [zeros 24][0]? = some (zeros 24) ∧
      (zeros 24).length ≠ 16 := by
  decide +kernel

theorem witness_EachStepTakesOneEvent : State.reset.queue = [] ∧
    ∃ t, step (queued [.issue ⟨0x12, 0, [.lit iv]⟩]) = .next t :=
  ⟨rfl, exists_next (by decide +kernel)⟩

theorem witness_ResetAbandonsTheTransaction :
    (queued [.reset (some ⟨0x12, 0, [.lit iv]⟩)]).queue = .reset (some ⟨0x12, 0, [.lit iv]⟩) :: [] ∧
      (queued [.reset none]).queue = .reset none :: [] := ⟨rfl, rfl⟩

theorem witness_EveryStepKeepsTheInvariant : (queued [.issue ⟨0x12, 0, [.lit iv]⟩]).Inv ∧
    ∃ t, step (queued [.issue ⟨0x12, 0, [.lit iv]⟩]) = .next t :=
  ⟨⟨rfl, rfl, rfl, List.Pairwise.nil, by simp [queued, State.reset]⟩, exists_next (by decide +kernel)⟩

/-- The hypothesis of the statements about every next state: OperationsWriteOnlyTheirAnswer, EveryTransactionWritesAStatus,
StatusesAreThoseOfTheTable; with OK for ResultsFitTheFormat. -/
theorem witness_ResultsFitTheFormat : ∃ t, exec .shiftRows (drive { s := some iv }) = .next t ∧ t.status = some .ok :=
  ⟨_, rfl, rfl⟩

theorem witness_AnswerIsAFunctionOfTheOperands : State.reset.roms = (queued [.reset none]).roms ∧
    ∃ t, step (queued [.reset none]) = .next t := ⟨rfl, _, rfl⟩

theorem witness_ErrorsWriteNoResult :
    ∃ t, exec .expandKey (drive { key := some (zeros 15) }) = .next t ∧ t.status = some (.err .invalidKeyLength) :=
  ⟨_, rfl, rfl⟩

/-- Each kind of refusal. -/
theorem witness_RefusalsAreThoseListed :
    refusal? (step (queued [.issue ⟨0xFF, 0, []⟩])) = some (.unassignedOp 0xFF) ∧
      refusal? (step (queued [.issue ⟨0x12, 0, [.buf 3]⟩])) = some .operandWithoutValue ∧
      refusal? (step (queued [.issue ⟨0x12, 0, []⟩])) = some .illFormedOperands := by
  decide +kernel

theorem witness_HostStoresTheResponse :
    (queued [.issue ⟨0x12, 7, [.lit iv]⟩]).queue = .issue ⟨0x12, 7, [.lit iv]⟩ :: [] ∧
      ∃ t, step (queued [.issue ⟨0x12, 7, [.lit iv]⟩]) = .next t :=
  ⟨rfl, exists_next (by decide +kernel)⟩

theorem witness_TransactionsMayBeReordered :
    (1 : Nat) ≠ 2 ∧ Source.buf 1 ∉ [Source.lit iv] ∧ Source.buf 2 ∉ [Source.lit iv] ∧
      ∃ a b, step (queued [.issue ⟨0x12, 1, [.lit iv]⟩, .issue ⟨0x13, 2, [.lit iv]⟩]) = .next a ∧ step a = .next b := by
  refine ⟨by decide, by decide, by decide, ?_⟩
  have h : ((next? (step (queued [.issue ⟨0x12, 1, [.lit iv]⟩, .issue ⟨0x13, 2, [.lit iv]⟩]))).bind
      fun a => next? (step a)).isSome = true := by decide +kernel
  cases ha : step (queued [.issue ⟨0x12, 1, [.lit iv]⟩, .issue ⟨0x13, 2, [.lit iv]⟩]) with
  | fault f => rw [ha] at h; cases h
  | refused f => rw [ha] at h; cases h
  | next a =>
    rw [ha] at h
    obtain ⟨b, hb⟩ := exists_next (r := step a) h
    exact ⟨a, b, rfl, hb⟩

/-- SboxReadsItsRom, InvSboxReadsItsRom, GfmulGivesTheFieldProduct; and RconAnswersInItsDomain, at the ends of its clauses. -/
theorem witness_field_ports : (drive { a := some [0x53] }).inp.a = some [0x53] ∧
    (drive { a := some [0x57], b := some [0x83] }).inp.b = some [0x83] ∧
    (∀ x ∈ ([0x01, 0x0A] : List Byte), 1 ≤ x.toNat ∧ x.toNat ≤ 10) ∧
    (∀ x ∈ ([0x00, 0x0B, 0xFF] : List Byte), x.toNat = 0 ∨ 11 ≤ x.toNat) := by
  decide +kernel

/-- The recurrence of R105 at its ends, and an element that is not zero (R112). -/
theorem witness_FieldIdentities : (1 ≤ 1 ∧ 1 < 10) ∧ (1 ≤ 9 ∧ 9 < 10) ∧ (0x53 : Byte) ≠ 0x00 ∧ gmul 0x53 0xCA = 0x01 ∧
    Roms.standard.rconAt 10 = some 0x36 ∧ xtime 0x57 = xtime 0x57 := by
  decide

/-- The layer statements, BlockAndMatrixAreExactInverses, and the last clause of TransformLaws. -/
theorem witness_layers : (drive { s := some iv }).inp.s = some iv ∧ iv.length = 16 ∧ 15 / 4 < 4 ∧
    ∀ r c, (StateMatrix.ofFn fun _ _ => 0x80).get r c = (StateMatrix.ofFn fun _ _ => 0x80).get 0 c := by
  decide +kernel

/-- The key-schedule statements, each key length, the first and last column of each range, and a key of another length. -/
theorem witness_keys : (zeros 16).length = Variant.aes128.keyBytes ∧ (zeros 24).length = Variant.aes192.keyBytes ∧
    (zeros 32).length = Variant.aes256.keyBytes ∧ (drive { key := some (zeros 24) }).inp.key = some (zeros 24) ∧
    (0 < Variant.aes192.keyColumns ∧ 5 < Variant.aes192.keyColumns) ∧
    (Variant.aes256.keyColumns ≤ 59 ∧ 59 < 4 * (Variant.aes256.rounds + 1)) ∧ validKey (zeros 16) ∧ validKey (zeros 24) ∧
    validKey (zeros 32) ∧ ¬ validKey (zeros 17) := by
  unfold validKey
  decide +kernel

/-- The block statements: a good key with a good and a bad block, and a bad key. -/
theorem witness_block : (drive { block := some iv, key := some k }).inp.block = some iv ∧
    (drive { block := some iv, key := some k }).inp.key = some k ∧ (drive { block := some iv, key := some k }).roms =
      Roms.standard ∧ iv.length = 16 ∧ validKey k ∧ k.length = Variant.aes128.keyBytes ∧ (zeros 17).length ≠ 16 ∧
    ¬ validKey [] := by
  unfold validKey
  decide +kernel

/-- The padding statements, at the ends of their clauses. -/
theorem witness_padding : (zeros 14).length % 16 ≠ 15 ∧ 15 % 16 = 15 ∧ (0x01 : Byte) ≠ 0x00 ∧
    (zeros 13 ++ [0x01] ++ zeros 1).length % 16 = 15 ∧ (zeros 14 ++ [0x01] ++ zeros 0).length % 16 = 15 := by decide

/-- The statements about the modes with an IV: a good IV, key and message, and for each error clause its own case. -/
theorem witness_iv_modes : (drive { iv := some iv, key := some k2, msg := some p17 }).inp.iv = some iv ∧
    (drive { iv := some iv, key := some k2, msg := some p17 }).inp.key = some k2 ∧
    (drive { iv := some iv, key := some k2, msg := some p17 }).inp.msg = some p17 ∧ k2.length = Variant.aes256.keyBytes ∧
    validKey k2 ∧ iv.length = 16 ∧ p17 ≠ [] ∧ p17.length ≤ 16 * 2 ^ 64 ∧ p17.length % 16 ≠ 0 ∧ (zeros 15).length ≠ 16 ∧
    Instr.cfbEnc ≠ .cbcEnc ∧ [] = ([] : Bytes) := by
  unfold validKey
  decide +kernel

/-- ECB and CBC round trips: a message R225 (c) admits with r ≠ 15, and one with r = 15. -/
theorem witness_roundtrip : (drive { iv := some iv, key := some k2, msg := some p17 }).roms = Roms.standard ∧
    padReversible p17 ∧ padReversible (List.replicate 14 0x41 ++ [0x02]) := by
  refine ⟨rfl, ?_, ?_⟩ <;> unfold padReversible
  · intro h
    exact absurd h (by decide +kernel)
  · intro _ x hx
    simp at hx
    subst hx
    decide

/-- EcbDecDeciphersEachBlock: a message that leaves a byte that is not zero, and one that leaves none. -/
theorem witness_EcbDecDeciphersEachBlock :
    (drive { key := some k, msg := some (be 16 0x6C2A3FD93AA7B417C5438D26A4619519) }).inp.key = some k ∧
      k.length = Variant.aes128.keyBytes ∧ be 16 0x6C2A3FD93AA7B417C5438D26A4619519 ≠ [] ∧
      (be 16 0x6C2A3FD93AA7B417C5438D26A4619519).length % 16 = 0 ∧
      (∃ x ∈ ecbMap (decryptWith Roms.standard .aes128 k) (be 16 0x6C2A3FD93AA7B417C5438D26A4619519), x ≠ 0x00) ∧
      ∀ x ∈ ecbMap (decryptWith Roms.standard .aes128 k) (be 16 0x7DF76B0C1AB899B33E42F047B91B546F), x = 0x00 := by
  decide +kernel

/-- CbcDecUnchainsTheBlocks: the same two cases; E(00×16) under a zero IV leaves zeros. -/
theorem witness_CbcDecUnchainsTheBlocks : (zeros 16).length = 16 ∧
    (∃ x ∈ cbcDecrypt (decryptWith Roms.standard .aes128 k) iv (blocksOf (be 16 0x6C2A3FD93AA7B417C5438D26A4619519)),
      x ≠ 0x00) ∧
    ∀ x ∈ cbcDecrypt (decryptWith Roms.standard .aes128 k) (zeros 16) (blocksOf (be 16 0x7DF76B0C1AB899B33E42F047B91B546F)),
      x = 0x00 := by
  decide +kernel

theorem exists_longer (n : Nat) : ∃ msg : Bytes, n < msg.length := ⟨zeros (n + 1), by simp⟩

/-- CtrReadsHalfTheIv: two IVs with the same half, and a message of more than 2^64 blocks. -/
theorem witness_CtrReadsHalfTheIv :
    slice iv 0 8 = slice (be 16 0x0001020304050607FFFFFFFFFFFFFFFF) 0 8 ∧
      (be 16 0x0001020304050607FFFFFFFFFFFFFFFF).length = 16 ∧ ∃ msg : Bytes, 16 * 2 ^ 64 < msg.length :=
  ⟨by decide +kernel, by decide +kernel, exists_longer _⟩

end Sys2Proof.Tests
end

section
/-! The field product (R107, R108, R110). Reduction modulo m(x) goes one degree at a time. Each of its steps is linear over
XOR and commutes with doubling, which is multiplication by x; so the reduction of a doubled polynomial is xtime of the
reduction, and the doubling loop keeps, bit by bit, the reductions of what `polyMul` computes. -/

namespace Sys2Proof.Machine

/-- One step of `polyReduce`: the term of degree `i` is cleared by a multiple of m(x). -/
def reduceStep (p i : Nat) : Nat := if p.testBit i then p ^^^ (0x11B <<< (i - 8)) else p

theorem polyReduce_eq_foldl (p : Nat) : polyReduce p = [14, 13, 12, 11, 10, 9, 8].foldl reduceStep p := rfl

theorem reduceStep_of_testBit_false {p i : Nat} (h : p.testBit i = false) : reduceStep p i = p := by
  simp [reduceStep, h]

theorem reduceStep_of_lt {p i : Nat} (h : p < 2 ^ i) : reduceStep p i = p :=
  reduceStep_of_testBit_false (Nat.testBit_lt_two_pow h)

theorem reduceStep_xor (p q i : Nat) : reduceStep (p ^^^ q) i = reduceStep p i ^^^ reduceStep q i := by
  unfold reduceStep
  cases hp : p.testBit i <;> cases hq : q.testBit i <;> simp [hp, hq, Nat.xor_assoc, Nat.xor_comm, Nat.xor_left_comm]

theorem two_mul_xor (p q : Nat) : 2 * (p ^^^ q) = 2 * p ^^^ 2 * q := by
  simpa [Nat.shiftLeft_succ] using Nat.shiftLeft_xor_distrib (i := 1) (a := p) (b := q)

theorem testBit_two_mul_succ (p i : Nat) : (2 * p).testBit (i + 1) = p.testBit i := by
  simp [Nat.testBit_succ]

/-- A step commutes with multiplication by x, one degree up. -/
theorem reduceStep_two_mul (p : Nat) {i : Nat} (h : 8 ≤ i) : reduceStep (2 * p) (i + 1) = 2 * reduceStep p i := by
  have hm : 0x11B <<< (i + 1 - 8) = 2 * 0x11B <<< (i - 8) := by rw [Nat.sub_add_comm h, Nat.shiftLeft_succ]
  rw [reduceStep, reduceStep, testBit_two_mul_succ, hm]
  split
  · rw [two_mul_xor]
  · rfl

theorem foldl_reduceStep_xor (is : List Nat) (p q : Nat) :
    is.foldl reduceStep (p ^^^ q) = is.foldl reduceStep p ^^^ is.foldl reduceStep q := by
  induction is generalizing p q with
  | nil => rfl
  | cons i is ih => rw [List.foldl_cons, reduceStep_xor, ih]; rfl

/-- The reduction is linear. -/
theorem polyReduce_xor (p q : Nat) : polyReduce (p ^^^ q) = polyReduce p ^^^ polyReduce q :=
  foldl_reduceStep_xor _ p q

/-- A polynomial of degree at most 7 is reduced. -/
theorem polyReduce_of_lt {p : Nat} (h : p < 2 ^ 8) : polyReduce p = p := by
  have step {i : Nat} (hi : 8 ≤ i) : reduceStep p i = p :=
    reduceStep_of_lt (h.trans_le (Nat.pow_le_pow_right (by decide) hi))
  simp [polyReduce_eq_foldl, step]

/-- Doubling before the reduction is doubling after it and one more step. -/
theorem polyReduce_two_mul {p : Nat} (h : p < 2 ^ 14) : polyReduce (2 * p) = reduceStep (2 * polyReduce p) 8 := by
  simp [polyReduce_eq_foldl, reduceStep_of_lt h, reduceStep_two_mul]

/-- `xtime` is the one step that a doubled byte needs. -/
theorem toNat_xtime (a : Byte) : (xtime a).toNat = reduceStep (2 * a.toNat) 8 := by
  have hlt := a.isLt
  have htop : a.getLsbD 7 = decide (128 ≤ a.toNat) := a.msb_eq_decide
  have hbit : (2 * a.toNat).testBit 8 = a.getLsbD 7 := testBit_two_mul_succ a.toNat 7
  have hshift : (a <<< 1).toNat = 2 * a.toNat % 2 ^ 8 := by rw [BitVec.toNat_shiftLeft, Nat.shiftLeft_succ]; rfl
  rw [reduceStep, xtime, BitVec.toNat_xor, hbit, hshift, htop]
  by_cases h : 128 ≤ a.toNat
  · have hlow : (2 * a.toNat ^^^ 0x11B) % 2 ^ 8 = 2 * a.toNat % 2 ^ 8 ^^^ 0x1B := Nat.xor_mod_two_pow
    have hhigh : (2 * a.toNat ^^^ 0x11B) / 2 ^ 8 = 0 := by
      rw [Nat.xor_div_two_pow, show 2 * a.toNat / 2 ^ 8 = 1 by omega]; rfl
    simp only [h, decide_true, if_true]
    change _ ^^^ 0x1B = _ ^^^ 0x11B
    omega
  · have hsmall : 2 * a.toNat < 256 := by omega
    simpa [h] using hsmall

/-- `xtime` is multiplication by x, reduced (R108). -/
theorem toNat_xtime_eq_polyReduce (a : Byte) : (xtime a).toNat = polyReduce (2 * a.toNat) := by
  rw [toNat_xtime, polyReduce_two_mul (a.isLt.trans (by decide)), polyReduce_of_lt a.isLt]

/-- `gmul`'s loop on `(r, p)` after `n` bits of `b` (R110). -/
def gmulLoop (a b : Byte) (n : Nat) : Byte × Byte := (List.range n).foldl (gmulStep b) (0x00, a)

/-- `polyMul` after `n` bits of `b`. -/
def polyMulLoop (a b n : Nat) : Nat := (List.range n).foldl (fun r i => if b.testBit i then r ^^^ (a <<< i) else r) 0

theorem gmul_eq_gmulLoop (a b : Byte) : gmul a b = (gmulLoop a b 8).1 := rfl

theorem polyMul_eq_polyMulLoop (a b : Nat) : polyMul a b = polyMulLoop a b 8 := rfl

@[simp] theorem gmulLoop_zero (a b : Byte) : gmulLoop a b 0 = (0x00, a) := rfl

@[simp] theorem polyMulLoop_zero (a b : Nat) : polyMulLoop a b 0 = 0 := rfl

theorem gmulLoop_succ (a b : Byte) (n : Nat) : gmulLoop a b (n + 1) = gmulStep b (gmulLoop a b n) n := by
  simp [gmulLoop, List.range_succ]

theorem polyMulLoop_succ (a b n : Nat) :
    polyMulLoop a b (n + 1) = if b.testBit n then polyMulLoop a b n ^^^ (a <<< n) else polyMulLoop a b n := by
  simp [polyMulLoop, List.range_succ]

/-- The loop's second component is `a` times x^n, reduced. -/
theorem toNat_gmulLoop_snd (a b : Byte) {n : Nat} (h : n ≤ 7) :
    (gmulLoop a b n).2.toNat = polyReduce (a.toNat <<< n) := by
  induction n with
  | zero => simp [polyReduce_of_lt a.isLt]
  | succ n ih =>
    have hlt : a.toNat <<< n < 2 ^ 14 :=
      (Nat.shiftLeft_lt a.isLt).trans_le (Nat.pow_le_pow_right (by decide) (by omega))
    calc (gmulLoop a b (n + 1)).2.toNat
        = (xtime (gmulLoop a b n).2).toNat := by rw [gmulLoop_succ]; rfl
      _ = reduceStep (2 * polyReduce (a.toNat <<< n)) 8 := by rw [toNat_xtime, ih (by omega)]
      _ = polyReduce (a.toNat <<< (n + 1)) := by rw [Nat.shiftLeft_succ, polyReduce_two_mul hlt]

/-- The loop's first component is the product with the low `n` bits of `b`, reduced. -/
theorem toNat_gmulLoop_fst (a b : Byte) {n : Nat} (h : n ≤ 8) :
    (gmulLoop a b n).1.toNat = polyReduce (polyMulLoop a.toNat b.toNat n) := by
  induction n with
  | zero => simp [polyReduce_of_lt]
  | succ n ih =>
    have hr := ih (by omega)
    have hp := toNat_gmulLoop_snd a b (n := n) (by omega)
    rw [gmulLoop_succ, polyMulLoop_succ, gmulStep, ← BitVec.testBit_toNat]
    cases b.toNat.testBit n with
    | false => simpa using hr
    | true => simp [polyReduce_xor, hr, hp]

/-- Settles O28: the doubling loop keeps the reductions of the polynomial product's two loop values. -/
theorem gmulIsThePolynomialProduct : Obligations.GmulIsThePolynomialProduct := by
  refine ⟨fun a b => ?_, toNat_xtime_eq_polyReduce, rfl⟩
  rw [gmul_eq_gmulLoop, polyMul_eq_polyMulLoop, toNat_gmulLoop_fst a b le_rfl]

end Sys2Proof.Machine
end

section
/-! INV_SBOX (R102, R103). -/

namespace Sys2Proof.Machine

theorem exec_invSbox {s : State} {a : Byte} (h : s.inp.a = some [a]) :
    exec .invSbox s = .next (s.respond .ok { y := some (s.roms.invSboxAt a) }) := by
  change execInvSbox s = _
  rw [execInvSbox, h, onByte_some, complete_eq]

/-- Read off the two tables, entry by entry. -/
theorem invSboxAt_sboxAt : Function.LeftInverse Roms.standard.invSboxAt Roms.standard.sboxAt := by
  unfold Function.LeftInverse
  decide +kernel

/-- On the finite set of bytes a left inverse is a right inverse. -/
theorem sboxAt_invSboxAt : Function.RightInverse Roms.standard.invSboxAt Roms.standard.sboxAt :=
  invSboxAt_sboxAt.rightInverse_of_surjective (Finite.surjective_of_injective invSboxAt_sboxAt.injective)

/-- Settles O23: the fixed tables are inverse to each other on one side, hence on both. -/
theorem invSboxReadsItsRom : Obligations.InvSboxReadsItsRom :=
  ⟨rfl, rfl, fun _ _ => exec_invSbox, rfl, rfl, rfl, rfl, fun a => ⟨invSboxAt_sboxAt a, sboxAt_invSboxAt a⟩⟩

end Sys2Proof.Machine
end

section
/-! The construction of the S-box (R104): its affine map has an inverse, so the byte whose image an entry is can be
computed from the entry. -/

namespace Sys2Proof.Machine

/-- The affine map of R104. -/
def affine (b : Byte) : Byte := b ^^^ rotl8 b 1 ^^^ rotl8 b 2 ^^^ rotl8 b 3 ^^^ rotl8 b 4 ^^^ 0x63

/-- The inverse of the affine map. -/
def affineInverse (y : Byte) : Byte := rotl8 y 1 ^^^ rotl8 y 3 ^^^ rotl8 y 6 ^^^ 0x05

theorem affine_affineInverse : ∀ y : Byte, affine (affineInverse y) = y := by
  decide +kernel

/-- Read off the table, entry by entry: undoing the affine map leaves the inverse of the index. -/
theorem gmul_affineInverse_sboxAt :
    ∀ a : Byte, a ≠ 0x00 → gmul a (affineInverse (Roms.standard.sboxAt a)) = 0x01 := by
  decide +kernel

theorem affineInverse_sboxAt_zero : affineInverse (Roms.standard.sboxAt 0x00) = 0x00 := by
  decide

/-- Settles O24: the byte is the preimage of the entry under the affine map. -/
theorem sboxIsTheAffineImageOfTheInverse : Obligations.SboxIsTheAffineImageOfTheInverse := by
  intro a
  refine ⟨affineInverse (Roms.standard.sboxAt a), ?_, (affine_affineInverse _).symm⟩
  split
  case isTrue h => rw [h, affineInverse_sboxAt_zero]
  case isFalse h => exact gmul_affineInverse_sboxAt a h

end Sys2Proof.Machine
end

section
/-! The block and its State Matrix (R130): byte i stands at row i mod 4, column i / 4, and no other byte is read. -/

namespace Sys2Proof.Machine

/-- The flattening, read at a place of the matrix. -/
theorem getElem?_fromState (S : StateMatrix) (r c : Fin 4) : (fromState S)[4 * c.val + r.val]? = some (S.get r c) := by
  fin_cases c <;> fin_cases r <;> rfl

/-- The matrix of a block, read at a place: `toState_get` without its default. -/
theorem some_toState_get {B : Bytes} (hB : B.length = 16) (r c : Fin 4) :
    some ((toState B).get r c) = B[4 * c.val + r.val]? := by
  have hlt : 4 * c.val + r.val < B.length := by omega
  rw [toState_get, List.getD_eq_getElem _ _ hlt, List.getElem?_eq_getElem hlt]

theorem toState_get_mod_div {B : Bytes} (hB : B.length = 16) {i : Nat} (h : i / 4 < 4) :
    some ((toState B).get ⟨i % 4, Nat.mod_lt i (by decide)⟩ ⟨i / 4, h⟩) = B[i]? := by
  rw [some_toState_get hB, Nat.div_add_mod]

/-- Construction reads place by place what flattening wrote there. -/
@[simp] theorem toState_fromState (S : StateMatrix) : toState (fromState S) = S :=
  StateMatrix.ext_get fun r c =>
    Option.some.inj ((some_toState_get (length_fromState S) r c).trans (getElem?_fromState S r c))

/-- Every place below 16 is a place of the matrix, and both sequences end there. -/
theorem fromState_toState {B : Bytes} (hB : B.length = 16) : fromState (toState B) = B := by
  apply List.ext_getElem?
  intro i
  by_cases h : i / 4 < 4
  · have hplace := getElem?_fromState (toState B) ⟨i % 4, Nat.mod_lt i (by decide)⟩ ⟨i / 4, h⟩
    rwa [toState_get_mod_div hB h, Nat.div_add_mod] at hplace
  · have hi : 16 ≤ i := by omega
    rw [List.getElem?_eq_none (by simpa using hi), List.getElem?_eq_none (by simpa [hB] using hi)]

/-- Settles O31: the two directions and the place of a byte. -/
theorem blockAndMatrixAreExactInverses : Obligations.BlockAndMatrixAreExactInverses :=
  ⟨fun _ => fromState_toState, toState_fromState, fun _ _ h hB => toState_get_mod_div hB h⟩

end Sys2Proof.Machine
end

section
/-! SUB_BYTES and INV_SUB_BYTES (R132 to R134): a transform that maps each byte of the matrix maps each byte of the
block. -/

namespace Sys2Proof.Machine

/-- What a layer operation answers on a 16-byte port. -/
theorem layer_eq (f : StateMatrix → StateMatrix) {s : State} {B : Bytes} (h : s.inp.s = some B) (hB : B.length = 16) :
    layer f s = .next (s.respond .ok { sOut := some (fromState (f (toState B))) }) := by
  rw [layer, h, onFixed_some hB, complete_eq]

theorem fromState_ofFn_map (f : Byte → Byte) (S : StateMatrix) :
    fromState (.ofFn fun r c => f (S.get r c)) = (fromState S).map f := rfl

theorem fromState_subBytes_toState (m : Roms) {B : Bytes} (hB : B.length = 16) :
    fromState (subBytes m (toState B)) = B.map m.sboxAt := by
  rw [subBytes, fromState_ofFn_map, fromState_toState hB]

theorem fromState_invSubBytes_toState (m : Roms) {B : Bytes} (hB : B.length = 16) :
    fromState (invSubBytes m (toState B)) = B.map m.invSboxAt := by
  rw [invSubBytes, fromState_ofFn_map, fromState_toState hB]

/-- Settles O32: both operations are layers, and their transforms act byte by byte. -/
theorem subBytesActsLaneByLane : Obligations.SubBytesActsLaneByLane := by
  intro s B h hB
  constructor
  · change execSubBytes s = _
    rw [execSubBytes, layer_eq _ h hB, fromState_subBytes_toState _ hB]
  · change execInvSubBytes s = _
    rw [execInvSubBytes, layer_eq _ h hB, fromState_invSubBytes_toState _ hB]

end Sys2Proof.Machine
end

section
/-! The key schedule (R160, R161). Expansion only appends, so every list of columns the loop passes through is a prefix of
the schedule, and a column read from the prefix is the schedule's own. -/

namespace Sys2Proof.Machine

theorem wordAt_of_isPrefix {V W : List Word} (h : V <+: W) {i : Nat} (hi : i < V.length) : wordAt W i = wordAt V i := by
  obtain ⟨R, rfl⟩ := h
  exact List.getD_append V R _ i hi

theorem isPrefix_expandStep (m : Roms) (n : Nat) (W : List Word) (i : Nat) : W <+: expandStep m n W i :=
  List.prefix_append W _

theorem isPrefix_foldl_expandStep (m : Roms) (n : Nat) (is : List Nat) (W : List Word) :
    W <+: is.foldl (expandStep m n) W := by
  induction is generalizing W with
  | nil => exact List.prefix_rfl
  | cons i is ih => exact (isPrefix_expandStep m n W i).trans (ih _)

/-- The column a step appends. -/
theorem wordAt_expandStep_length (m : Roms) (n : Nat) (W : List Word) :
    wordAt (expandStep m n W W.length) W.length = (wordAt W (W.length - n)).xor (expandTemp m n W W.length) := by
  simp [expandStep, wordAt]

/-- `T` reads the column before it only. -/
theorem expandTemp_congr (m : Roms) (n : Nat) {V W : List Word} {i : Nat} (h : wordAt V (i - 1) = wordAt W (i - 1)) :
    expandTemp m n V i = expandTemp m n W i := by
  rw [expandTemp, expandTemp, h]

theorem wordAt_seedColumns (key : Bytes) {n j : Nat} (h : j < n) :
    wordAt (seedColumns n key) j = .ofFn fun k => key.getD (4 * j + k.val) 0 := by
  simp [wordAt, seedColumns, h]

theorem seedColumns_isPrefix_keySchedule (m : Roms) (v : Variant) (key : Bytes) :
    seedColumns v.keyColumns key <+: keySchedule m v key :=
  isPrefix_foldl_expandStep m v.keyColumns _ _

/-- The loop reaches column `i` with the `i` columns before it written. -/
theorem exists_expandStep_isPrefix_keySchedule (m : Roms) (v : Variant) (key : Bytes) {i : Nat}
    (h0 : v.keyColumns ≤ i) (h1 : i < v.scheduleWords) :
    ∃ W, W.length = i ∧ expandStep m v.keyColumns W i <+: keySchedule m v key := by
  obtain ⟨d, rfl⟩ := Nat.exists_eq_add_of_le h0
  obtain ⟨r, hr⟩ := Nat.exists_eq_add_of_lt h1
  have hsplit : List.range' v.keyColumns (v.scheduleWords - v.keyColumns) =
      List.range' v.keyColumns d ++ (v.keyColumns + d) :: List.range' (v.keyColumns + d + 1) r := by
    rw [show v.scheduleWords - v.keyColumns = d + (r + 1) by omega, ← List.range'_append_1, List.range'_succ]
  refine ⟨(List.range' v.keyColumns d).foldl (expandStep m v.keyColumns) (seedColumns v.keyColumns key), ?_, ?_⟩
  · rw [length_expand, length_seedColumns, List.length_range']
  · rw [keySchedule, hsplit, List.foldl_append, List.foldl_cons]
    exact isPrefix_foldl_expandStep m v.keyColumns _ _

theorem Variant.keyColumns_pos (v : Variant) : 0 < v.keyColumns := by
  cases v <;> decide

theorem Variant.keyBytes_eq (v : Variant) : v.keyBytes = 4 * v.keyColumns := by
  cases v <;> rfl

/-- The first columns are the key (R160). -/
theorem some_wordAt_keySchedule_get (m : Roms) {v : Variant} {key : Bytes} (hkey : key.length = v.keyBytes) {j : Nat}
    (hj : j < v.keyColumns) (k : Fin 4) : some ((wordAt (keySchedule m v key) j).get k) = key[4 * j + k.val]? := by
  have hlt : 4 * j + k.val < key.length := by rw [hkey, v.keyBytes_eq]; omega
  rw [wordAt_of_isPrefix (seedColumns_isPrefix_keySchedule m v key) (by simpa using hj), wordAt_seedColumns key hj,
    Word.get_ofFn, List.getD_eq_getElem _ _ hlt, List.getElem?_eq_getElem hlt]

/-- A later column, from the schedule's own earlier ones (R161). -/
theorem wordAt_keySchedule (m : Roms) (v : Variant) (key : Bytes) {i : Nat} (h0 : v.keyColumns ≤ i)
    (h1 : i < v.scheduleWords) :
    wordAt (keySchedule m v key) i = (wordAt (keySchedule m v key) (i - v.keyColumns)).xor
      (expandTemp m v.keyColumns (keySchedule m v key) i) := by
  have hpos := v.keyColumns_pos
  obtain ⟨W, rfl, hstep⟩ := exists_expandStep_isPrefix_keySchedule m v key h0 h1
  have hW : W <+: keySchedule m v key := (isPrefix_expandStep m _ W _).trans hstep
  rw [wordAt_of_isPrefix hstep (by simp [expandStep]), wordAt_expandStep_length,
    wordAt_of_isPrefix hW (i := W.length - v.keyColumns) (by omega),
    expandTemp_congr m _ (wordAt_of_isPrefix hW (i := W.length - 1) (by omega))]

/-- Settles O36: the length, the seeding and the recurrence. -/
theorem scheduleFollowsTheRecurrence : Obligations.ScheduleFollowsTheRecurrence := fun m v key hkey =>
  ⟨length_keySchedule m v key, fun _ k hj => some_wordAt_keySchedule_get m hkey hj k,
    fun _ h0 h1 => wordAt_keySchedule m v key h0 h1⟩

end Sys2Proof.Machine
end

section
/-! EXPAND_KEY (R166, R168): the key's length selects a variant, and the answer is that variant's schedule. -/

namespace Sys2Proof.Machine

theorem scheduleOf_eq {s : State} {key : Bytes} {v : Variant} (h : s.inp.key = some key) (hkey : key.length = v.keyBytes) :
    scheduleOf v s = .next (s.respond .ok { w := some (keySchedule s.roms v key) }) := by
  rw [scheduleOf, h, onFixed_some hkey, complete_eq]

/-- EXPAND_KEY behind its port. -/
theorem exec_expandKey {s : State} {key : Bytes} (h : s.inp.key = some key) :
    exec .expandKey s = whenValid (variantOf key) s fun v => complete { w := some (keySchedule s.roms v key) } s := by
  change execExpandKey s = _
  rw [execExpandKey, h, onPort_some]

theorem exec_expandKey_of_length {s : State} {key : Bytes} {v : Variant} (h : s.inp.key = some key)
    (hkey : key.length = v.keyBytes) :
    exec .expandKey s = .next (s.respond .ok { w := some (keySchedule s.roms v key) }) := by
  rw [exec_expandKey h, variantOf_eq_ok.2 hkey, whenValid_ok, complete_eq]

theorem exec_expandKey_of_not_validKey {s : State} {key : Bytes} (h : s.inp.key = some key) (hkey : ¬ validKey key) :
    exec .expandKey s = .next (s.respond (.err .invalidKeyLength) {}) := by
  have herr : variantOf key = .error .invalidKeyLength := variantOf_eq_error.2 ⟨rfl, by simpa [validKey] using hkey⟩
  rw [exec_expandKey h, herr, whenValid_error]

/-- With a key of a variant's length EXPAND_KEY is that variant's fixed-width operation. -/
theorem exec_expandKey_eq_scheduleOf {s : State} {key : Bytes} (v : Variant) (h : s.inp.key = some key)
    (hkey : key.length = v.keyBytes) :
    exec .expandKey s = scheduleOf v s ∧
      exec .expandKey s = .next (s.respond .ok { w := some (keySchedule s.roms v key) }) ∧
      (keySchedule s.roms v key).length = v.scheduleWords :=
  ⟨(exec_expandKey_of_length h hkey).trans (scheduleOf_eq h hkey).symm, exec_expandKey_of_length h hkey,
    length_keySchedule s.roms v key⟩

/-- Settles O38: one variant for each valid length, and the error for every other. -/
theorem expandKeyDispatchesOnTheKeyLength : Obligations.ExpandKeyDispatchesOnTheKeyLength :=
  ⟨rfl, rfl, fun _ _ h => ⟨exec_expandKey_eq_scheduleOf .aes128 h, exec_expandKey_eq_scheduleOf .aes192 h,
    exec_expandKey_eq_scheduleOf .aes256 h, exec_expandKey_of_not_validKey h⟩⟩

/-- A valid key is a key of some variant. -/
theorem exists_variant_of_validKey {key : Bytes} (h : validKey key) : ∃ v : Variant, key.length = v.keyBytes := by
  obtain h | h | h := h
  · exact ⟨.aes128, h⟩
  · exact ⟨.aes192, h⟩
  · exact ⟨.aes256, h⟩

/-- In R5 Nr is N + 6, so Tw = 4 * (Nr + 1) is Lk + 28. -/
theorem Variant.scheduleWords_eq (v : Variant) : v.scheduleWords = v.keyBytes + 28 := by
  cases v <;> rfl

/-- EXPAND_KEY reads the ROMs and the key port only. -/
theorem sameAnswer_exec_expandKey {s t : State} (hroms : s.roms = t.roms) (hkey : s.inp.key = t.inp.key) :
    sameAnswer (exec .expandKey s) (exec .expandKey t) := by
  cases ht : t.inp.key with
  | none =>
    change sameAnswer (execExpandKey s) (execExpandKey t)
    rw [execExpandKey, execExpandKey, hkey, ht]
    exact rfl
  | some key =>
    rw [exec_expandKey (hkey.trans ht), exec_expandKey ht, hroms]
    cases variantOf key with
    | ok v => exact ⟨rfl, rfl⟩
    | error e => exact ⟨rfl, rfl⟩

/-- Settles O39: the three lengths are those of the variants' schedules. -/
theorem scheduleLengthLaw : Obligations.ScheduleLengthLaw := by
  refine ⟨fun s key h hvalid => ?_, fun _ _ => sameAnswer_exec_expandKey⟩
  obtain ⟨v, hkey⟩ := exists_variant_of_validKey hvalid
  refine ⟨_, exec_expandKey_of_length h hkey, ?_⟩
  rw [length_keySchedule, v.scheduleWords_eq, ← hkey]
  omega

end Sys2Proof.Machine
end

section
/-! The cipher's rounds (R191). The loop over rounds 1 to n, run from the state after the initial AddRoundKey, is the
recursion on the round: going from n to n + 1 appends one round at the end of the loop. -/

namespace Sys2Proof.Machine

theorem stateAfterRounds_zero (m : Roms) (W : List Word) (S : StateMatrix) :
    stateAfterRounds m W S 0 = addRoundKey W 0 S := rfl

theorem stateAfterRounds_succ (m : Roms) (W : List Word) (S : StateMatrix) (n : Nat) :
    stateAfterRounds m W S (n + 1) = cipherRound m W (stateAfterRounds m W S n) (n + 1) := rfl

theorem foldl_cipherRound_eq_stateAfterRounds (m : Roms) (W : List Word) (S : StateMatrix) (n : Nat) :
    (List.range' 1 n).foldl (cipherRound m W) (addRoundKey W 0 S) = stateAfterRounds m W S n := by
  induction n with
  | zero => rw [List.range'_zero, List.foldl_nil, stateAfterRounds_zero]
  | succ n ih => rw [List.range'_1_concat, List.foldl_concat, ih, stateAfterRounds_succ, Nat.add_comm 1 n]

/-- For every schedule and number of rounds: the final round, without MixColumns, after rounds 1 to nr - 1. -/
theorem cipher_eq (m : Roms) (W : List Word) (nr : Nat) (S : StateMatrix) :
    cipher m W nr S = addRoundKey W nr (shiftRows (subBytes m (stateAfterRounds m W S (nr - 1)))) := by
  rw [cipher, foldl_cipherRound_eq_stateAfterRounds]

/-- Settles O41: enciphering a block is the cipher under the variant's schedule. -/
theorem cipherIsItsRoundSequence : Obligations.CipherIsItsRoundSequence := fun m v key B => by
  rw [encryptWith, cipher_eq]

end Sys2Proof.Machine
end

section
/-! How an operation ends (R51, R282, R283). Each shared operation passes on what its continuation does, so what holds of
every answer, and what two states that agree on the ROMs and the operand ports have in common, is said once for each shape
of operation and then read off for the 24. -/

namespace Sys2Proof.Machine

/-- What an operation may answer: a status of its row of R282, with OK results of its format, with an error none. -/
structure Answers (i : Instr) (st : Status) (o : OutPorts) : Prop where
  status_mem : st ∈ reportable i
  fits : st = .ok → o.fits i.format
  empty : ∀ e, st = .err e → o = {}

theorem ok_mem_reportable (i : Instr) : .ok ∈ reportable i := by
  cases i <;> exact List.mem_cons_self

theorem answers_ok {i : Instr} {o : OutPorts} (h : o.fits i.format) : Answers i .ok o :=
  ⟨ok_mem_reportable i, fun _ => h, nofun⟩

theorem answers_err {i : Instr} {e : Error} (h : .err e ∈ reportable i) : Answers i (.err e) {} :=
  ⟨h, nofun, fun _ _ => rfl⟩

theorem endsWith_answers_layer {i : Instr} (hi : i.format = .s128) (f : StateMatrix → StateMatrix) (s : State) :
    EndsWith s (Answers i) (layer f s) :=
  endsWith_onFixed fun B _ => endsWith_complete (answers_ok (by
    rw [hi]
    exact ⟨fromState (f (toState B)), length_fromState _, rfl⟩))

theorem endsWith_answers_scheduleOf {i : Instr} {v : Variant} (s : State)
    (hi : ∀ w : List Word, w.length = v.scheduleWords → OutPorts.fits { w := some w } i.format) :
    EndsWith s (Answers i) (scheduleOf v s) :=
  endsWith_onFixed fun key _ => endsWith_complete (answers_ok (hi _ (length_keySchedule s.roms v key)))

theorem eq_invalidKeyLength_of_variantOf {key : Bytes} {e : Error} (h : variantOf key = .error e) :
    e = .invalidKeyLength := (variantOf_eq_error.1 h).1

theorem validateBlock_error_cases {key block : Bytes} {e : Error} (h : validateBlock key block = .error e) :
    e = .invalidKeyLength ∨ e = .invalidBlockLength := by
  obtain h | ⟨-, h⟩ := thenCheck_eq_error.1 h
  · exact .inl (eq_invalidKeyLength_of_variantOf h)
  · exact .inr (checkBlock_eq_error.1 h).1

theorem validateMode_error_cases {key : Bytes} {c : Except Error Unit} {e : Error}
    (h : validateMode key c = .error e) : e = .invalidKeyLength ∨ c = .error e := by
  obtain h | ⟨-, h⟩ := thenCheck_eq_error.1 h
  · exact .inl (eq_invalidKeyLength_of_variantOf h)
  · exact .inr h

theorem validateModeIv_error_cases {key iv : Bytes} {c : Except Error Unit} {e : Error}
    (h : validateModeIv key iv c = .error e) : e = .invalidKeyLength ∨ e = .invalidBlockLength ∨ c = .error e := by
  obtain h | ⟨-, h⟩ := thenCheck_eq_error.1 h
  · exact (validateBlock_error_cases h).imp_right .inl
  · exact .inr (.inr h)

/-- An operation all of whose errors its row lists raises no other. -/
theorem err_mem_reportable_of_all {i : Instr}
    (h : reportable i = [.ok, .err .invalidKeyLength, .err .invalidBlockLength, .err .emptyInput]) (e : Error) :
    .err e ∈ reportable i := by
  rw [h]
  cases e <;> decide

theorem endsWith_answers_blockOp {i : Instr} (hi : i.format = .bk)
    (hr : reportable i = [.ok, .err .invalidKeyLength, .err .invalidBlockLength])
    {f : Variant → Bytes → Bytes → Bytes} (hf : ∀ v key block, (f v key block).length = 16) (s : State) :
    EndsWith s (Answers i) (blockOp f s) :=
  endsWith_onPort fun block => endsWith_onPort fun key => endsWith_whenValid
    (fun v _ => endsWith_complete (answers_ok (by rw [hi]; exact ⟨_, hf v key block, rfl⟩)))
    (fun e he => answers_err (by
      rw [hr]
      obtain rfl | rfl := validateBlock_error_cases he <;> decide))

theorem endsWith_answers_ctrOp {i : Instr} (hi : i.format = .mik)
    (hr : reportable i = [.ok, .err .invalidKeyLength, .err .invalidBlockLength, .err .emptyInput])
    (hex : BitVec 64 → Vector Byte 8) (s : State) : EndsWith s (Answers i) (ctrOp hex s) :=
  endsWith_onPort fun _ => endsWith_onPort fun _ => endsWith_onPort fun msg => by
    by_cases h : ctrTooLong msg = true
    · rw [if_pos h]
      exact endsWith_refused _
    · rw [if_neg h]
      exact endsWith_whenValid (fun _ _ => endsWith_complete (answers_ok (by rw [hi]; exact ⟨_, rfl⟩)))
        fun e _ => answers_err (err_mem_reportable_of_all hr e)

/-- Every answer of every operation. -/
theorem exec_endsWith (i : Instr) (s : State) : EndsWith s (Answers i) (exec i s) := by
  cases i with
  | sbox | invSbox => exact endsWith_onByte fun _ => endsWith_complete (answers_ok ⟨_, rfl⟩)
  | rcon =>
    refine endsWith_onByte fun a => ?_
    cases s.roms.rconAt a.toNat with
    | some y => exact endsWith_complete (answers_ok ⟨y, rfl⟩)
    | none => exact endsWith_fault _
  | gfmul => exact endsWith_onByte fun _ => endsWith_onByte fun _ => endsWith_complete (answers_ok ⟨_, rfl⟩)
  | subBytes | invSubBytes | shiftRows | invShiftRows | mixColumns | invMixColumns =>
    exact endsWith_answers_layer rfl _ s
  | ks128 | ks192 | ks256 => exact endsWith_answers_scheduleOf s fun w hw => ⟨w, hw, rfl⟩
  | expandKey =>
    refine endsWith_onPort fun key => endsWith_whenValid (fun v _ => endsWith_complete (answers_ok ?_)) fun e he =>
      answers_err ?_
    · refine ⟨_, ?_, rfl⟩
      rw [length_keySchedule]
      cases v <;> decide
    · obtain rfl := eq_invalidKeyLength_of_variantOf he
      decide
  | encryptBlock => exact endsWith_answers_blockOp rfl rfl (fun v key block => length_encryptWith s.roms v key block) s
  | decryptBlock => exact endsWith_answers_blockOp rfl rfl (fun v key block => length_decryptWith s.roms v key block) s
  | ecbEnc =>
    refine endsWith_onPort fun key => endsWith_onPort fun msg => endsWith_whenValid
      (fun _ _ => endsWith_complete (answers_ok ⟨_, rfl⟩)) fun e he => answers_err ?_
    obtain rfl | h := validateMode_error_cases he
    · decide
    · cases h
  | ecbDec =>
    exact endsWith_onPort fun key => endsWith_onPort fun msg => endsWith_whenValid
      (fun _ _ => endsWith_finishUnpadded fun M => answers_ok ⟨M, rfl⟩) fun e _ =>
      answers_err (err_mem_reportable_of_all rfl e)
  | cbcEnc =>
    refine endsWith_onPort fun iv => endsWith_onPort fun key => endsWith_onPort fun msg => endsWith_whenValid
      (fun _ _ => endsWith_complete (answers_ok ⟨_, rfl⟩)) fun e he => answers_err ?_
    obtain rfl | rfl | h := validateModeIv_error_cases he
    · decide
    · decide
    · cases h
  | cbcDec =>
    exact endsWith_onPort fun iv => endsWith_onPort fun key => endsWith_onPort fun msg => endsWith_whenValid
      (fun _ _ => endsWith_finishUnpadded fun M => answers_ok ⟨M, rfl⟩) fun e _ =>
      answers_err (err_mem_reportable_of_all rfl e)
  | cfbEnc | cfbDec =>
    exact endsWith_onPort fun iv => endsWith_onPort fun key => endsWith_onPort fun msg => endsWith_whenValid
      (fun _ _ => endsWith_complete (answers_ok ⟨_, rfl⟩)) fun e _ => answers_err (err_mem_reportable_of_all rfl e)
  | ctrEnc | ctrDec => exact endsWith_answers_ctrOp rfl rfl _ s

/-! Two states with the same ROMs and operand ports. -/

/-- Outcomes of two states with one and the same end: the same response, the same fault or the same refusal. -/
inductive SameEnd (s t : State) : Result → Result → Prop where
  | respond (st : Status) (o : OutPorts) : SameEnd s t (.next (s.respond st o)) (.next (t.respond st o))
  | fault (f : Fault) : SameEnd s t (.fault f) (.fault f)
  | refused (r : Refusal) : SameEnd s t (.refused r) (.refused r)

section
variable {s t : State}

theorem SameEnd.sameAnswer {r q : Result} (h : SameEnd s t r q) : sameAnswer r q := by
  cases h with
  | respond st o => exact ⟨rfl, rfl⟩
  | fault f => exact rfl
  | refused r => exact rfl

/-- What the first state answers, the second answers too. -/
theorem SameEnd.next {q : Result} {st : Status} {o : OutPorts} (h : SameEnd s t (.next (s.respond st o)) q) :
    q = .next (t.respond st o) := by
  generalize hr : (Host.Outcome.next (s.respond st o) : Result) = r at h
  cases h with
  | respond st' o' =>
    have h : s.respond st o = s.respond st' o' := Host.Outcome.next.inj hr
    have hst : some st = some st' := congrArg State.status h
    have ho : o = o' := congrArg State.outp h
    rw [Option.some.inj hst, ho]
  | fault f => cases hr
  | refused r => cases hr

theorem sameEnd_complete (o : OutPorts) : SameEnd s t (complete o s) (complete o t) := .respond .ok o

theorem sameEnd_onByte (port : Option Bytes) {k l : Byte → Result} (h : ∀ x, SameEnd s t (k x) (l x)) :
    SameEnd s t (onByte port k) (onByte port l) := by
  unfold onByte
  split
  · exact h _
  · exact .refused _

theorem sameEnd_onFixed (n : Nat) (port : Option Bytes) {k l : Bytes → Result} (h : ∀ B, SameEnd s t (k B) (l B)) :
    SameEnd s t (onFixed n port k) (onFixed n port l) := by
  unfold onFixed
  split
  · split_ifs
    · exact h _
    · exact .refused _
  · exact .refused _

theorem sameEnd_onPort (port : Option Bytes) {k l : Bytes → Result} (h : ∀ B, SameEnd s t (k B) (l B)) :
    SameEnd s t (onPort port k) (onPort port l) := by
  cases port with
  | none => exact .refused _
  | some B => exact h B

theorem sameEnd_whenValid {α : Type} (check : Except Error α) {k l : α → Result} (h : ∀ x, SameEnd s t (k x) (l x)) :
    SameEnd s t (whenValid check s k) (whenValid check t l) := by
  cases check with
  | ok x => exact h x
  | error e => exact .respond _ _

theorem sameEnd_finishUnpadded (P : Bytes) : SameEnd s t (finishUnpadded P s) (finishUnpadded P t) := by
  unfold finishUnpadded
  cases unpad P with
  | some M => exact sameEnd_complete _
  | none => exact .fault _

/-- An operation reads the ROMs and the operand ports and nothing else (R20): with these equal the two states differ in
fields that no arm looks at, and each arm is the same chain of shared operations in both. -/
theorem sameEnd_exec (i : Instr) (hm : s.roms = t.roms) (h : s.inp = t.inp) : SameEnd s t (exec i s) (exec i t) := by
  obtain ⟨m, _, p, _, _, _, _, _⟩ := s
  obtain ⟨_, _, _, _, _, _, _, _⟩ := t
  obtain rfl : m = _ := hm
  obtain rfl : p = _ := h
  cases i with
  | sbox | invSbox => exact sameEnd_onByte _ fun _ => sameEnd_complete _
  | rcon =>
    refine sameEnd_onByte _ fun a => ?_
    cases m.rconAt a.toNat with
    | some y => exact sameEnd_complete _
    | none => exact .fault _
  | gfmul => exact sameEnd_onByte _ fun _ => sameEnd_onByte _ fun _ => sameEnd_complete _
  | subBytes | invSubBytes | shiftRows | invShiftRows | mixColumns | invMixColumns | ks128 | ks192 | ks256 =>
    exact sameEnd_onFixed _ _ fun _ => sameEnd_complete _
  | expandKey => exact sameEnd_onPort _ fun _ => sameEnd_whenValid _ fun _ => sameEnd_complete _
  | encryptBlock | decryptBlock | ecbEnc =>
    exact sameEnd_onPort _ fun _ => sameEnd_onPort _ fun _ => sameEnd_whenValid _ fun _ => sameEnd_complete _
  | ecbDec =>
    exact sameEnd_onPort _ fun _ => sameEnd_onPort _ fun _ => sameEnd_whenValid _ fun _ => sameEnd_finishUnpadded _
  | cbcEnc | cfbEnc | cfbDec =>
    exact sameEnd_onPort _ fun _ => sameEnd_onPort _ fun _ => sameEnd_onPort _ fun _ => sameEnd_whenValid _ fun _ =>
      sameEnd_complete _
  | cbcDec =>
    exact sameEnd_onPort _ fun _ => sameEnd_onPort _ fun _ => sameEnd_onPort _ fun _ => sameEnd_whenValid _ fun _ =>
      sameEnd_finishUnpadded _
  | ctrEnc | ctrDec =>
    refine sameEnd_onPort _ fun _ => sameEnd_onPort _ fun _ => sameEnd_onPort _ fun msg => ?_
    cases ctrTooLong msg with
    | true => exact .refused _
    | false => exact sameEnd_whenValid _ fun _ => sameEnd_complete _

end

end Sys2Proof.Machine
end

section
/-! The step (R51, R60): where the next state comes from, event by event. A transaction that answers does so from its
command, the ROMs and the values of its operands, so it answers the same wherever those agree. -/

namespace Sys2Proof.Machine

/-- Command `c`, issued in `s`, decodes to `i`, has the operands `v`, and answers status `st` and result ports `o`. -/
structure Transacts (s : State) (c : Command) (i : Instr) (v : List Bytes) (st : Status) (o : OutPorts) : Prop where
  decodes : decodeOp c.op = some i
  resolves : resolveAll s.buffers c.srcs = some v
  wellFormed : wellFormed i v = true
  exec_eq : exec i (s.issue i v) = .next ((s.issue i v).respond st o)

/-- The state after a transaction: the response on the ports and in the host's buffer. -/
def State.after (s : State) (c : Command) (i : Instr) (v : List Bytes) (st : Status) (o : OutPorts) : State :=
  ((s.issue i v).respond st o).store c.dst ⟨st, o.value⟩

section
variable {s t : State} {c : Command} {i : Instr} {v : List Bytes} {st : Status} {o : OutPorts}

@[simp] theorem after_roms : (s.after c i v st o).roms = s.roms := rfl
@[simp] theorem after_op : (s.after c i v st o).op = some (opCode i) := rfl
@[simp] theorem after_datapath : (s.after c i v st o).datapath = {} := rfl
@[simp] theorem after_status : (s.after c i v st o).status = some st := rfl
@[simp] theorem after_outp : (s.after c i v st o).outp = o := rfl
@[simp] theorem after_queue : (s.after c i v st o).queue = s.queue := rfl
@[simp] theorem after_buffers : (s.after c i v st o).buffers = bufferPut s.buffers c.dst ⟨st, o.value⟩ := rfl

theorem Transacts.answers (h : Transacts s c i v st o) : Answers i st o := by
  obtain ⟨st', o', heq, hans⟩ := exec_endsWith i _ _ h.exec_eq
  have hst : some st = some st' := congrArg State.status heq
  have ho : o = o' := congrArg State.outp heq
  rwa [Option.some.inj hst, ho]

/-- A transaction answers the same in every state with the same ROMs in which its operands have the same values. -/
theorem Transacts.congr (h : Transacts s c i v st o) (hm : t.roms = s.roms)
    (hv : resolveAll t.buffers c.srcs = resolveAll s.buffers c.srcs) : Transacts t c i v st o := by
  refine ⟨h.decodes, hv.trans h.resolves, h.wellFormed, ?_⟩
  have hend : SameEnd (s.issue i v) (t.issue i v) (exec i (s.issue i v)) (exec i (t.issue i v)) :=
    sameEnd_exec i hm.symm rfl
  rw [h.exec_eq] at hend
  exact hend.next

end

section
variable {s t : State} {c : Command} {rest : List HostEvent}

theorem step_idle (h : s.queue = []) : step s = .next s := by
  rw [step, fetch_idle h]

theorem step_reset {running : Option Command} (h : s.queue = .reset running :: rest) :
    step s = .next (s.withQueue rest).assertReset := by
  rw [step, fetch_reset h]

/-- A well-formed transaction is run. -/
theorem step_issue {i : Instr} {v : List Bytes} (h : s.queue = .issue c :: rest) (hi : decodeOp c.op = some i)
    (hv : resolveAll s.buffers c.srcs = some v) (hw : wellFormed i v = true) :
    step s = collect c.dst (exec i ((s.withQueue rest).issue i v)) := by
  simp [step, fetch_issue h, present, decode_singleton, hi, hv, hw]

theorem step_transacts {i : Instr} {v : List Bytes} {st : Status} {o : OutPorts} (h : s.queue = .issue c :: rest)
    (ht : Transacts (s.withQueue rest) c i v st o) : step s = .next ((s.withQueue rest).after c i v st o) := by
  rw [step_issue h ht.decodes ht.resolves ht.wellFormed, ht.exec_eq]
  rfl

/-- A transaction with an unassigned op code is refused. -/
theorem step_unassigned (h : s.queue = .issue c :: rest) (hi : decodeOp c.op = none) :
    step s = .refused (.unassignedOp c.op) := by
  simp [step, fetch_issue h, present, decode_singleton, hi]

theorem step_operandWithoutValue {i : Instr} (h : s.queue = .issue c :: rest) (hi : decodeOp c.op = some i)
    (hv : resolveAll s.buffers c.srcs = none) : step s = .refused .operandWithoutValue := by
  simp [step, fetch_issue h, present, decode_singleton, hi, hv]

/-- A transaction that does not fit its format is refused. -/
theorem step_illFormed {i : Instr} {v : List Bytes} (h : s.queue = .issue c :: rest) (hi : decodeOp c.op = some i)
    (hv : resolveAll s.buffers c.srcs = some v) (hw : wellFormed i v = false) :
    step s = .refused .illFormedOperands := by
  simp [step, fetch_issue h, present, decode_singleton, hi, hv, hw]

/-- A step on a transaction that answers a next state has run it. -/
theorem exists_transacts_of_step (h : s.queue = .issue c :: rest) (hs : step s = .next t) :
    ∃ i v st o, Transacts (s.withQueue rest) c i v st o ∧ t = (s.withQueue rest).after c i v st o := by
  cases hi : decodeOp c.op with
  | none => cases (step_unassigned h hi).symm.trans hs
  | some i =>
    cases hv : resolveAll s.buffers c.srcs with
    | none => cases (step_operandWithoutValue h hi hv).symm.trans hs
    | some v =>
      cases hw : wellFormed i v with
      | false => cases (step_illFormed h hi hv hw).symm.trans hs
      | true =>
        rw [step_issue h hi hv hw] at hs
        obtain ⟨u, hu, -⟩ := collect_eq_next hs
        obtain ⟨st, o, rfl, -⟩ := exec_endsWith i _ u hu
        have ht : Transacts (s.withQueue rest) c i v st o := ⟨hi, hv, hw, hu⟩
        rw [hu] at hs
        exact ⟨i, v, st, o, ht, (Host.Outcome.next.inj hs).symm⟩

/-- Where the next state of a step comes from. -/
theorem step_cases (hs : step s = .next t) :
    (s.queue = [] ∧ t = s) ∨
    (∃ running rest, s.queue = .reset running :: rest ∧ t = (s.withQueue rest).assertReset) ∨
    ∃ c rest i v st o, s.queue = .issue c :: rest ∧ Transacts (s.withQueue rest) c i v st o ∧
      t = (s.withQueue rest).after c i v st o := by
  match h : s.queue with
  | [] =>
    rw [step_idle h] at hs
    exact .inl ⟨rfl, (Host.Outcome.next.inj hs).symm⟩
  | .reset running :: rest =>
    rw [step_reset h] at hs
    exact .inr (.inl ⟨running, rest, rfl, (Host.Outcome.next.inj hs).symm⟩)
  | .issue c :: rest =>
    obtain ⟨i, v, st, o, ht, heq⟩ := exists_transacts_of_step h hs
    exact .inr (.inr ⟨c, rest, i, v, st, o, rfl, ht, heq⟩)

end

end Sys2Proof.Machine
end

section
/-! The invariant (R21, R26, R30, R62, R283; D23): reset gives it and every step keeps it. -/

namespace Sys2Proof.Machine

/-- Result ports that fit a format carry a value. -/
theorem value_isSome_of_fits {o : OutPorts} {f : PortFormat} (h : o.fits f) : o.value.isSome = true := by
  cases f with
  | l8 | g8 | mk | mik =>
    obtain ⟨x, rfl⟩ := h
    rfl
  | s128 | kf16 | kf24 | kf32 | kv | bk =>
    obtain ⟨x, -, rfl⟩ := h
    rfl

/-- The host gets a value exactly with OK. -/
theorem Answers.value_isSome_iff {i : Instr} {st : Status} {o : OutPorts} (h : Answers i st o) :
    o.value.isSome = true ↔ st = .ok := by
  cases st with
  | ok => exact ⟨fun _ => rfl, fun _ => value_isSome_of_fits (h.fits rfl)⟩
  | err e =>
    rw [h.empty e rfl]
    exact ⟨nofun, nofun⟩

theorem Answers.portsAgree {i : Instr} {st : Status} {o : OutPorts} (h : Answers i st o) {s : State}
    (hop : s.op = some (opCode i)) (hst : s.status = some st) (ho : s.outp = o) : PortsAgree s := by
  unfold PortsAgree
  rw [hst, ho]
  cases st with
  | ok => exact ⟨i, hop, h.fits rfl⟩
  | err e => exact h.empty e rfl

theorem assertReset_inv {s : State} (h : s.Inv) (rest : List HostEvent) : (s.withQueue rest).assertReset.Inv where
  roms := h.roms
  datapath := rfl
  ports := rfl
  buffers := h.buffers
  stored := h.stored

theorem after_inv {s : State} {c : Command} {rest : List HostEvent} {i : Instr} {v : List Bytes} {st : Status}
    {o : OutPorts} (h : s.Inv) (ht : Transacts (s.withQueue rest) c i v st o) :
    ((s.withQueue rest).after c i v st o).Inv where
  roms := h.roms
  datapath := rfl
  ports := ht.answers.portsAgree rfl rfl rfl
  buffers := bufferPut_wf h.buffers _ _
  stored := fun x hx => by
    obtain rfl | hx := mem_bufferPut hx
    · exact ht.answers.value_isSome_iff
    · exact h.stored x hx

/-- Settles O11: the idle step, the reset and the transaction each keep the invariant. -/
theorem everyStepKeepsTheInvariant : Obligations.EveryStepKeepsTheInvariant := by
  intro s t h hs
  obtain ⟨-, rfl⟩ | ⟨running, rest, -, rfl⟩ | ⟨c, rest, i, v, st, o, -, ht, rfl⟩ := step_cases hs
  · exact h
  · exact assertReset_inv h rest
  · exact after_inv h ht

/-- Settles O10. -/
theorem resetMeetsTheInvariant : Obligations.ResetMeetsTheInvariant where
  roms := rfl
  datapath := rfl
  ports := rfl
  buffers := reset_buffers_wf
  stored := nofun

/-- Settles O8: the fields of the reset state. -/
theorem resetLeavesNoValue : Obligations.ResetLeavesNoValue := ⟨rfl, rfl, rfl, rfl, rfl, rfl⟩

/-- Settles O9: the step is the reset of the state with the rest of the queue. -/
theorem resetAbandonsTheTransaction : Obligations.ResetAbandonsTheTransaction := fun _ _ _ h =>
  ⟨_, step_reset h, rfl, rfl, rfl, rfl, rfl, rfl, rfl, rfl⟩

/-- Settles O7: each of the two kinds of event leaves the rest of the queue. -/
theorem eachStepTakesOneEvent : Obligations.EachStepTakesOneEvent := by
  refine ⟨fun _ => step_idle, fun s t e rest h hs => ?_⟩
  cases e with
  | reset running =>
    rw [step_reset h] at hs
    rw [← Host.Outcome.next.inj hs]
    rfl
  | issue c =>
    obtain ⟨i, v, st, o, -, rfl⟩ := exists_transacts_of_step h hs
    rfl

end Sys2Proof.Machine
end

section
/-! What holds of every operation (R20, R26, R280, R282, R283). -/

namespace Sys2Proof.Machine

/-- Settles O12: every next state is the state itself with a response. -/
theorem operationsWriteOnlyTheirAnswer : Obligations.OperationsWriteOnlyTheirAnswer := by
  intro i s t h
  obtain ⟨st, o, rfl, -⟩ := exec_endsWith i s t h
  exact ⟨rfl, rfl, rfl, rfl, rfl, rfl⟩

/-- Settles O14: a response has a status. -/
theorem everyTransactionWritesAStatus : Obligations.EveryTransactionWritesAStatus := by
  refine ⟨rfl, rfl, rfl, rfl, fun i s t h => ?_⟩
  obtain ⟨st, o, rfl, -⟩ := exec_endsWith i s t h
  exact ⟨st, rfl⟩

/-- Settles O19: an OK answer fits the format. -/
theorem resultsFitTheFormat : Obligations.ResultsFitTheFormat := by
  intro i s t h hok
  obtain ⟨st, o, rfl, hans⟩ := exec_endsWith i s t h
  exact hans.fits (Option.some.inj hok)

/-- Settles O16: the state after an error has the ROMs and operand ports of the state before, so it ends the same way. -/
theorem errorsWriteNoResult : Obligations.ErrorsWriteNoResult := by
  intro i s t e h herr
  obtain ⟨st, o, rfl, hans⟩ := exec_endsWith i s t h
  obtain rfl : st = .err e := Option.some.inj herr
  refine ⟨hans.empty e rfl, rfl, rfl, rfl, rfl, ?_⟩
  have hend : SameEnd s (s.respond (.err e) o) (exec i s) (exec i (s.respond (.err e) o)) := sameEnd_exec i rfl rfl
  rw [h] at hend
  exact hend.next

theorem step_roms {s t : State} (hs : step s = .next t) : t.roms = s.roms := by
  obtain ⟨-, rfl⟩ | ⟨running, rest, -, rfl⟩ | ⟨c, rest, i, v, st, o, -, -, rfl⟩ := step_cases hs <;> rfl

/-- Settles O13: the states in which a transaction is issued agree on all that it reads. -/
theorem answerIsAFunctionOfTheOperands : Obligations.AnswerIsAFunctionOfTheOperands :=
  ⟨fun i v s t hm => (sameEnd_exec (s := s.issue i v) (t := t.issue i v) i hm rfl).sameAnswer, fun _ _ => step_roms⟩

end Sys2Proof.Machine
end

section
/-! The host's buffers (R41, R52, R314): what a transaction stores, and that two transactions neither of which reads the
other's result may change places. -/

namespace Sys2Proof.Machine

theorem resolve_bufferPut {b : Buffers} {name : Nat} {r : Response} {src : Source} (h : src ≠ .buf name) :
    resolve (bufferPut b name r) src = resolve b src := by
  cases src with
  | lit v => rfl
  | buf n =>
    have hn : n ≠ name := fun heq => h (heq ▸ rfl)
    rw [resolve, resolve, bufferGet_put_other b r hn]

/-- A store changes no operand that does not name it. -/
theorem resolveAll_bufferPut {b : Buffers} {name : Nat} {r : Response} {srcs : List Source} (h : .buf name ∉ srcs) :
    resolveAll (bufferPut b name r) srcs = resolveAll b srcs := by
  induction srcs with
  | nil => rfl
  | cons src rest ih =>
    obtain ⟨hsrc, hrest⟩ := not_or.1 (mt List.mem_cons.2 h)
    rw [resolveAll, resolveAll, resolve_bufferPut (Ne.symm hsrc), ih hrest]

/-- Settles O20: the state after a transaction is the store under the chosen name. -/
theorem hostStoresTheResponse : Obligations.HostStoresTheResponse := by
  intro s t c rest h hs
  obtain ⟨i, v, st, o, -, rfl⟩ := exists_transacts_of_step h hs
  refine ⟨⟨st, rfl, ?_⟩, ?_, fun name hname => ?_⟩
  · simp
  · simp [resolve]
  · simpa using bufferGet_put_other s.buffers _ hname

/-- Settles O21: each transaction finds its operands unchanged in the other order, and the two stores commute. -/
theorem transactionsMayBeReordered : Obligations.TransactionsMayBeReordered := by
  intro s a b c d rest hq hdst hd hc ha hb
  obtain ⟨i, v, st, o, htc, rfl⟩ := exists_transacts_of_step hq ha
  obtain ⟨j, u, st', o', htd, rfl⟩ := exists_transacts_of_step rfl hb
  have hfirst : Transacts ((s.withQueue (.issue d :: .issue c :: rest)).withQueue (.issue c :: rest)) d j u st' o' :=
    htd.congr rfl (resolveAll_bufferPut hd).symm
  have hsecond : Transacts ((((s.withQueue (.issue d :: .issue c :: rest)).withQueue (.issue c :: rest)).after d j u st'
      o').withQueue rest) c i v st o := htc.congr rfl (resolveAll_bufferPut hc)
  exact ⟨_, _, step_transacts rfl hfirst, step_transacts rfl hsecond, bufferPut_comm _ _ hdst.symm, rfl, rfl⟩

end Sys2Proof.Machine
end

section
/-! The opcode map (R60, R63, R64): an op byte decodes to the operation whose code it is, and to nothing else. -/

namespace Sys2Proof

theorem decodeOp_opCode (i : Instr) : decodeOp (opCode i) = some i := by
  cases i <;> rfl

/-- Read off the map, byte by byte. -/
theorem opCode_of_mem_decodeOp : ∀ op : Byte, ∀ i ∈ decodeOp op, opCode i = op := by
  decide +kernel

/-- Decoding reads the op byte and leaves the rest. -/
theorem decode_cons_eq_ok {op : Byte} {code rest : Bytes} {i : Instr} :
    decode (op :: code) = .ok (i, rest) ↔ decodeOp op = some i ∧ rest = code := by
  cases h : decodeOp op with
  | none => simp [decode, h]
  | some j => simp [decode, h, eq_comm (a := rest)]

/-- Settles O2: both directions are those of the op byte. -/
theorem decodeAndEncodeAgree : Obligations.DecodeAndEncodeAgree := by
  refine ⟨fun i rest => decode_cons_eq_ok.2 ⟨decodeOp_opCode i, rfl⟩, fun code i rest h => ?_⟩
  cases code with
  | nil => cases h
  | cons op code =>
    obtain ⟨hop, rfl⟩ := decode_cons_eq_ok.1 h
    rw [encode, opCode_of_mem_decodeOp op i hop]
    rfl

/-- Settles O1: each row of the map is the row of its operation. -/
theorem opcodeMapIsTheTable : Obligations.OpcodeMapIsTheTable := by
  refine fun row h rest => ⟨decode_cons_eq_ok.2 ⟨?_, rfl⟩, ?_⟩ <;> revert row <;> decide

/-- Read off the map: the ranges of R64 are the codes that select no operation. -/
theorem unassignedOp_iff : ∀ op : Byte, Machine.unassignedOp op ↔ decodeOp op = none := by
  unfold Machine.unassignedOp
  decide +kernel

end Sys2Proof

namespace Sys2Proof.Machine

/-- Settles O3: the ranges, their size, and the refusal of a code that selects no operation. -/
theorem unassignedCodesAreRefused : Obligations.UnassignedCodesAreRefused :=
  ⟨unassignedOp_iff, by decide +kernel, fun _ c _ h hop => step_unassigned h ((unassignedOp_iff c.op).1 hop)⟩

end Sys2Proof.Machine
end

section
/-! Well-formed transactions (R62, R288, D25): the operands of each format, what the fetch refuses, and that behind the
fetch only a CTR message of more than 2^64 blocks is refused. -/

namespace Sys2Proof.Machine

/-- Settles O4: loading sets the format's ports one after the other. -/
theorem operandsStandOnTheirPorts : Obligations.OperandsStandOnTheirPorts :=
  fun _ _ _ _ _ _ _ => ⟨rfl, rfl, rfl, rfl, rfl, rfl, rfl, rfl, rfl, rfl⟩

/-- Settles O5: the fetch of a well-formed transaction. -/
theorem stepRunsTheDecodedTransaction : Obligations.StepRunsTheDecodedTransaction := fun _ _ _ _ _ h hi hv hw =>
  step_issue h (decode_cons_eq_ok.1 hi).1 hv hw

/-- A well-formed transaction gives every fixed-width port a value of its width. -/
theorem length_of_wellFormed {i : Instr} {operands : List Bytes} (hw : wellFormed i operands = true) {k n : Nat}
    {p : PortName} {v : Bytes} (hp : i.format.ports[k]? = some (p, .fixed n)) (hv : operands[k]? = some v) :
    v.length = n := by
  have hmem : ((p, PortWidth.fixed n), v) ∈ i.format.ports.zip operands :=
    List.mem_of_getElem? (List.getElem?_zip_eq_some.2 ⟨hp, hv⟩)
  obtain ⟨-, hwidths⟩ := (Bool.and_eq_true _ _).mp hw
  exact eq_of_beq (List.all_eq_true.1 hwidths _ hmem)

/-- Settles O6: with the wrong width the transaction is not well formed. -/
theorem wrongWidthIsRefused : Obligations.WrongWidthIsRefused := by
  intro s c rest i operands k n p v h hi hv hp hk hlen
  exact step_illFormed h (decode_cons_eq_ok.1 hi).1 hv
    (Bool.eq_false_iff.2 fun hw => hlen (length_of_wellFormed hw hp hk))

/-- Every port of a format is driven, a fixed-width port with its width (R62). -/
def PortsFit (f : PortFormat) (p : InPorts) : Prop :=
  match f with
  | .l8 => ∃ a, p.a = some [a]
  | .g8 => ∃ a b, p.a = some [a] ∧ p.b = some [b]
  | .s128 => ∃ B, p.s = some B ∧ B.length = 16
  | .kf16 => ∃ key, p.key = some key ∧ key.length = 16
  | .kf24 => ∃ key, p.key = some key ∧ key.length = 24
  | .kf32 => ∃ key, p.key = some key ∧ key.length = 32
  | .kv => ∃ key, p.key = some key
  | .bk => ∃ block key, p.block = some block ∧ p.key = some key
  | .mk => ∃ key msg, p.key = some key ∧ p.msg = some msg
  | .mik => ∃ iv key msg, p.iv = some iv ∧ p.key = some key ∧ p.msg = some msg

/-- The operands of a well-formed transaction drive the ports of its format. -/
theorem portsFit_loadPorts {i : Instr} {v : List Bytes} (hw : wellFormed i v = true) :
    PortsFit i.format (loadPorts i.format v) := by
  have hlen : v.length = i.format.ports.length := eq_of_beq ((Bool.and_eq_true _ _).mp hw).1
  have hwidth := fun k n p x => length_of_wellFormed hw (k := k) (n := n) (p := p) (v := x)
  generalize i.format = f at hlen hwidth ⊢
  cases f with
  | l8 =>
    obtain ⟨x, rfl⟩ := List.length_eq_one_iff.1 hlen
    obtain ⟨a, rfl⟩ := List.length_eq_one_iff.1 (hwidth 0 1 .a x rfl rfl)
    exact ⟨a, rfl⟩
  | g8 =>
    obtain ⟨x, y, rfl⟩ := List.length_eq_two.1 hlen
    obtain ⟨a, rfl⟩ := List.length_eq_one_iff.1 (hwidth 0 1 .a x rfl rfl)
    obtain ⟨b, rfl⟩ := List.length_eq_one_iff.1 (hwidth 1 1 .b y rfl rfl)
    exact ⟨a, b, rfl, rfl⟩
  | s128 | kf16 | kf24 | kf32 =>
    obtain ⟨B, rfl⟩ := List.length_eq_one_iff.1 hlen
    exact ⟨B, rfl, hwidth 0 _ _ B rfl rfl⟩
  | kv =>
    obtain ⟨key, rfl⟩ := List.length_eq_one_iff.1 hlen
    exact ⟨key, rfl⟩
  | bk | mk =>
    obtain ⟨x, y, rfl⟩ := List.length_eq_two.1 hlen
    exact ⟨x, y, rfl, rfl⟩
  | mik =>
    obtain ⟨iv, key, msg, rfl⟩ := List.length_eq_three.1 hlen
    exact ⟨iv, key, msg, rfl, rfl, rfl⟩

/-- The message of a transaction with an IV is its third operand. -/
theorem loadPorts_mik_msg {v : List Bytes} {msg : Bytes} (h : (loadPorts .mik v).msg = some msg) :
    v[2]? = some msg := by
  match v, h with
  | _ :: _ :: _ :: _, h => exact h

/-- Every refusal of `r` meets `P`. -/
def RefusedOnly (P : Refusal → Prop) (r : Result) : Prop := ∀ f, r = .refused f → P f

theorem eq_of_refused {q : Result} {p r : Refusal} (hp : q = .refused p) (hr : q = .refused r) : r = p :=
  (Host.Outcome.refused.inj (hp.symm.trans hr)).symm

section
variable {P : Refusal → Prop}

theorem refusedOnly_complete (o : OutPorts) (s : State) : RefusedOnly P (complete o s) := nofun

theorem refusedOnly_onByte {port : Option Bytes} {a : Byte} {k : Byte → Result} (hp : port = some [a])
    (h : ∀ x, RefusedOnly P (k x)) : RefusedOnly P (onByte port k) := by
  rw [hp]
  exact h a

theorem refusedOnly_onFixed {n : Nat} {port : Option Bytes} {B : Bytes} {k : Bytes → Result} (hp : port = some B)
    (hB : B.length = n) (h : ∀ B, RefusedOnly P (k B)) : RefusedOnly P (onFixed n port k) := by
  rw [hp, onFixed_some hB]
  exact h B

theorem refusedOnly_onPort {port : Option Bytes} {B : Bytes} {k : Bytes → Result} (hp : port = some B)
    (h : ∀ C, port = some C → RefusedOnly P (k C)) : RefusedOnly P (onPort port k) := by
  rw [hp]
  exact h B hp

theorem refusedOnly_whenValid {α : Type} (check : Except Error α) (s : State) {k : α → Result}
    (h : ∀ x, RefusedOnly P (k x)) : RefusedOnly P (whenValid check s k) := by
  cases check with
  | ok x => exact h x
  | error e => exact nofun

theorem refusedOnly_finishUnpadded (B : Bytes) (s : State) : RefusedOnly P (finishUnpadded B s) := by
  obtain ⟨M, -, hk⟩ | ⟨-, hk⟩ := finishUnpadded_cases B s <;> rw [hk] <;> exact nofun

end

/-- With its ports driven an operation is refused for the length of a CTR message only. -/
theorem refusedOnly_exec {i : Instr} {s : State} (hp : PortsFit i.format s.inp) :
    RefusedOnly (fun r => r = .ctrMessageTooLong ∧ (i = .ctrEnc ∨ i = .ctrDec) ∧
      ∃ msg, s.inp.msg = some msg ∧ 2 ^ 64 < (msg.length + 15) / 16) (exec i s) := by
  cases i with
  | sbox | invSbox =>
    obtain ⟨a, ha⟩ := hp
    exact refusedOnly_onByte ha fun _ => refusedOnly_complete _ _
  | rcon =>
    obtain ⟨a, ha⟩ := hp
    refine refusedOnly_onByte ha fun x => ?_
    cases s.roms.rconAt x.toNat <;> exact nofun
  | gfmul =>
    obtain ⟨a, b, ha, hb⟩ := hp
    exact refusedOnly_onByte ha fun _ => refusedOnly_onByte hb fun _ => refusedOnly_complete _ _
  | subBytes | invSubBytes | shiftRows | invShiftRows | mixColumns | invMixColumns | ks128 | ks192 | ks256 =>
    obtain ⟨B, h, hB⟩ := hp
    exact refusedOnly_onFixed h hB fun _ => refusedOnly_complete _ _
  | expandKey =>
    obtain ⟨key, hkey⟩ := hp
    exact refusedOnly_onPort hkey fun _ _ => refusedOnly_whenValid _ _ fun _ => refusedOnly_complete _ _
  | encryptBlock | decryptBlock | ecbEnc =>
    obtain ⟨x, y, hx, hy⟩ := hp
    exact refusedOnly_onPort hx fun _ _ => refusedOnly_onPort hy fun _ _ => refusedOnly_whenValid _ _ fun _ =>
      refusedOnly_complete _ _
  | ecbDec =>
    obtain ⟨key, msg, hkey, hmsg⟩ := hp
    exact refusedOnly_onPort hkey fun _ _ => refusedOnly_onPort hmsg fun _ _ => refusedOnly_whenValid _ _ fun _ =>
      refusedOnly_finishUnpadded _ _
  | cbcEnc | cfbEnc | cfbDec =>
    obtain ⟨iv, key, msg, hiv, hkey, hmsg⟩ := hp
    exact refusedOnly_onPort hiv fun _ _ => refusedOnly_onPort hkey fun _ _ => refusedOnly_onPort hmsg fun _ _ =>
      refusedOnly_whenValid _ _ fun _ => refusedOnly_complete _ _
  | cbcDec =>
    obtain ⟨iv, key, msg, hiv, hkey, hmsg⟩ := hp
    exact refusedOnly_onPort hiv fun _ _ => refusedOnly_onPort hkey fun _ _ => refusedOnly_onPort hmsg fun _ _ =>
      refusedOnly_whenValid _ _ fun _ => refusedOnly_finishUnpadded _ _
  | ctrEnc | ctrDec =>
    obtain ⟨iv, key, msg, hiv, hkey, hmsg⟩ := hp
    refine refusedOnly_onPort hiv fun _ _ => refusedOnly_onPort hkey fun _ _ => refusedOnly_onPort hmsg fun m hm => ?_
    cases hlong : ctrTooLong m with
    | true => exact fun f hf => ⟨eq_of_refused rfl hf, by simp, m, hm, of_decide_eq_true hlong⟩
    | false => exact refusedOnly_whenValid _ _ fun _ => refusedOnly_complete _ _

/-- The refusals of an operation behind the fetch. -/
theorem exec_issue_eq_refused {i : Instr} {v : List Bytes} {s : State} {r : Refusal} (hw : wellFormed i v = true)
    (h : exec i (s.issue i v) = .refused r) : r = .ctrMessageTooLong ∧ (i = .ctrEnc ∨ i = .ctrDec) ∧
      ∃ msg, v[2]? = some msg ∧ 2 ^ 64 < (msg.length + 15) / 16 := by
  obtain ⟨hr, hi, msg, hmsg, hlen⟩ := refusedOnly_exec (s := s.issue i v) (portsFit_loadPorts hw) r h
  have hf : i.format = .mik := by obtain rfl | rfl := hi <;> rfl
  rw [issue_inp, hf] at hmsg
  exact ⟨hr, hi, msg, loadPorts_mik_msg hmsg, hlen⟩

/-- Settles O18: the refusals of the fetch, and then those of the operation. -/
theorem refusalsAreThoseListed : Obligations.RefusalsAreThoseListed := by
  intro s r hs
  match h : s.queue with
  | [] => cases (step_idle h).symm.trans hs
  | .reset running :: rest => cases (step_reset h).symm.trans hs
  | .issue c :: rest =>
    refine ⟨c, rest, rfl, ?_⟩
    cases hi : decodeOp c.op with
    | none => exact .inl ⟨eq_of_refused (step_unassigned h hi) hs, rfl⟩
    | some i =>
      refine .inr ?_
      cases hv : resolveAll s.buffers c.srcs with
      | none => exact .inl ⟨eq_of_refused (step_operandWithoutValue h hi hv) hs, rfl⟩
      | some v =>
        refine .inr ⟨i, v, rfl, rfl, ?_⟩
        cases hw : wellFormed i v with
        | false => exact .inl ⟨eq_of_refused (step_illFormed h hi hv hw) hs, rfl⟩
        | true =>
          rw [step_issue h hi hv hw, collect_eq_refused] at hs
          exact .inr (exec_issue_eq_refused hw hs)

end Sys2Proof.Machine
end

section
/-! The laws of the field product (R108 to R112). The doubling loop is additive in each factor and commutes with `xtime`,
and every byte is made from 0x01 by `xtime` and addition, so the laws follow by induction over that construction. -/

namespace Sys2Proof.Machine

/-- The eight powers of x below degree 8. -/
def powersOfX : List Byte := List.iterate xtime 0x01 8

/-- Every byte is a sum of powers of x. -/
theorem byte_eq_foldl_powersOfX : ∀ a : Byte,
    a = ((powersOfX.filter fun p => a &&& p != 0x00).foldl (· ^^^ ·) 0x00) := by
  decide +kernel

/-- What holds of zero and of the powers of x, and of a sum when of its terms, holds of every byte. -/
theorem byte_induction {P : Byte → Prop} (zero : P 0x00) (power : ∀ p ∈ powersOfX, P p)
    (add : ∀ a b, P a → P b → P (a ^^^ b)) (a : Byte) : P a := by
  have hsum (l : List Byte) (hl : ∀ p ∈ l, P p) (r : Byte) (hr : P r) : P (l.foldl (· ^^^ ·) r) := by
    induction l generalizing r with
    | nil => exact hr
    | cons p l ih =>
      exact ih (fun q hq => hl q (List.mem_cons_of_mem p hq)) _ (add r p hr (hl p List.mem_cons_self))
  rw [byte_eq_foldl_powersOfX a]
  exact hsum _ (fun p hp => power p (List.mem_of_mem_filter hp)) _ zero

/-- Every byte is made from 0x01 by multiplication by x and addition. -/
theorem byte_induction_xtime {P : Byte → Prop} (one : P 0x01) (double : ∀ a, P a → P (xtime a))
    (add : ∀ a b, P a → P b → P (a ^^^ b)) (a : Byte) : P a := by
  have hpower (n : Nat) (x : Byte) (hx : P x) : ∀ p ∈ List.iterate xtime x n, P p := by
    induction n generalizing x with
    | zero => exact fun p hp => absurd hp List.not_mem_nil
    | succ n ih => exact List.forall_mem_cons.2 ⟨hx, ih _ (double x hx)⟩
  exact byte_induction (add 0x01 0x01 one one) (hpower 8 0x01 one) add a

theorem xtime_xor (a b : Byte) : xtime (a ^^^ b) = xtime a ^^^ xtime b := by
  apply BitVec.eq_of_toNat_eq
  rw [BitVec.toNat_xor, toNat_xtime, toNat_xtime, toNat_xtime, BitVec.toNat_xor, two_mul_xor, reduceStep_xor]

/-- The loop's second component does not depend on the second factor, and is additive in the first. -/
theorem gmulLoop_snd_xor (a b c d e : Byte) (n : Nat) :
    (gmulLoop (a ^^^ b) c n).2 = (gmulLoop a d n).2 ^^^ (gmulLoop b e n).2 := by
  induction n with
  | zero => rfl
  | succ n ih => simp only [gmulLoop_succ, gmulStep, ih, xtime_xor]

theorem gmulLoop_snd_congr (a b c : Byte) (n : Nat) : (gmulLoop a b n).2 = (gmulLoop a c n).2 := by
  induction n with
  | zero => rfl
  | succ n ih => simp only [gmulLoop_succ, gmulStep, ih]

/-- One bit of the second factor adds the doubled first factor or nothing. -/
theorem gmulLoop_succ_fst (a b : Byte) (n : Nat) :
    (gmulLoop a b (n + 1)).1 = (gmulLoop a b n).1 ^^^ (if b.getLsbD n then (gmulLoop a 0x00 n).2 else 0x00) := by
  rw [gmulLoop_succ, gmulStep, gmulLoop_snd_congr a b 0x00 n]
  split_ifs
  · rfl
  · exact (BitVec.xor_zero).symm

theorem gmulLoop_fst_xor_left (a b c : Byte) (n : Nat) :
    (gmulLoop (a ^^^ b) c n).1 = (gmulLoop a c n).1 ^^^ (gmulLoop b c n).1 := by
  induction n with
  | zero => simp
  | succ n ih =>
    simp only [gmulLoop_succ_fst, ih, gmulLoop_snd_xor a b 0x00 0x00 0x00 n]
    split_ifs
    · ac_rfl
    · simp

/-- A sum of bits selects the sum of what they select. -/
theorem ite_xor_zero (x y : Bool) (p : Byte) :
    (if x ^^ y then p else 0x00) = (if x then p else 0x00) ^^^ (if y then p else 0x00) := by
  cases x <;> cases y <;> simp

theorem gmulLoop_fst_xor_right (a b c : Byte) (n : Nat) :
    (gmulLoop a (b ^^^ c) n).1 = (gmulLoop a b n).1 ^^^ (gmulLoop a c n).1 := by
  induction n with
  | zero => simp
  | succ n ih =>
    simp only [gmulLoop_succ_fst, ih, BitVec.getLsbD_xor, ite_xor_zero]
    ac_rfl

theorem gmul_xor_left (a b c : Byte) : gmul (a ^^^ b) c = gmul a c ^^^ gmul b c := gmulLoop_fst_xor_left a b c 8

theorem gmul_xor_right (a b c : Byte) : gmul a (b ^^^ c) = gmul a b ^^^ gmul a c := gmulLoop_fst_xor_right a b c 8

theorem gmul_zero (a : Byte) : gmul a 0x00 = 0x00 := by
  have h := gmul_xor_right a 0x00 0x00
  simpa using h

theorem zero_gmul (a : Byte) : gmul 0x00 a = 0x00 := by
  have h := gmul_xor_left 0x00 0x00 a
  simpa using h

theorem xtime_zero : xtime 0x00 = 0x00 := by
  decide

theorem gmulLoop_xtime (a b : Byte) (n : Nat) :
    gmulLoop (xtime a) b n = (xtime (gmulLoop a b n).1, xtime (gmulLoop a b n).2) := by
  induction n with
  | zero => rw [gmulLoop_zero, gmulLoop_zero, xtime_zero]
  | succ n ih =>
    simp only [gmulLoop_succ, gmulStep, ih]
    split_ifs
    · rw [xtime_xor]
    · rfl

theorem xtime_gmul (a b : Byte) : gmul (xtime a) b = xtime (gmul a b) :=
  congrArg Prod.fst (gmulLoop_xtime a b 8)

/-- 0x01 is the unit on both sides, read off byte by byte. -/
theorem one_gmul_and_gmul_one : ∀ a : Byte, gmul 0x01 a = a ∧ gmul a 0x01 = a := by
  decide +kernel

theorem one_gmul (a : Byte) : gmul 0x01 a = a := (one_gmul_and_gmul_one a).1

theorem gmul_one (a : Byte) : gmul a 0x01 = a := (one_gmul_and_gmul_one a).2

theorem gmul_xtime (a b : Byte) : gmul a (xtime b) = xtime (gmul a b) := by
  induction a using byte_induction_xtime with
  | one => rw [one_gmul, one_gmul]
  | double a ih => rw [xtime_gmul, xtime_gmul, ih]
  | add a a' ha ha' => rw [gmul_xor_left, gmul_xor_left, xtime_xor, ha, ha']

theorem gmul_comm (a b : Byte) : gmul a b = gmul b a := by
  induction b using byte_induction_xtime with
  | one => rw [one_gmul, gmul_one]
  | double b ih => rw [gmul_xtime, xtime_gmul, ih]
  | add b b' hb hb' => rw [gmul_xor_left, gmul_xor_right, hb, hb']

theorem gmul_assoc (a b c : Byte) : gmul (gmul a b) c = gmul a (gmul b c) := by
  induction c using byte_induction_xtime with
  | one => rw [gmul_one, gmul_one]
  | double c ih => rw [gmul_xtime, gmul_xtime, gmul_xtime, ih]
  | add c c' hc hc' => simp only [gmul_xor_right, hc, hc']

theorem gmul_two (a : Byte) : gmul a 2 = mul2 a := by
  rw [show (2 : Byte) = xtime 0x01 from rfl, gmul_xtime, gmul_one, mul2]

theorem gmul_three (a : Byte) : gmul a 3 = mul3 a := by
  rw [show (3 : Byte) = 2 ^^^ 0x01 from rfl, gmul_xor_right, gmul_two, gmul_one, mul2, mul3]

theorem gmul_eight (a : Byte) : gmul a 8 = xtime (xtime (xtime a)) := by
  rw [show (8 : Byte) = xtime (xtime 2) from rfl, gmul_xtime, gmul_xtime, gmul_two, mul2]

theorem gmul_nine (a : Byte) : gmul a 9 = mul9 a := by
  rw [show (9 : Byte) = 8 ^^^ 0x01 from rfl, gmul_xor_right, gmul_eight, gmul_one, mul9]

theorem gmul_eleven (a : Byte) : gmul a 11 = mul11 a := by
  rw [show (11 : Byte) = 8 ^^^ 2 ^^^ 0x01 from rfl, gmul_xor_right, gmul_xor_right, gmul_eight, gmul_two, gmul_one, mul2,
    mul11]

theorem gmul_thirteen (a : Byte) : gmul a 13 = mul13 a := by
  rw [show (13 : Byte) = 8 ^^^ xtime 2 ^^^ 0x01 from rfl, gmul_xor_right, gmul_xor_right, gmul_eight, gmul_xtime, gmul_two,
    gmul_one, mul2, mul13]

theorem gmul_fourteen (a : Byte) : gmul a 14 = mul14 a := by
  rw [show (14 : Byte) = 8 ^^^ xtime 2 ^^^ 2 from rfl, gmul_xor_right, gmul_xor_right, gmul_eight, gmul_xtime, gmul_two,
    mul2, mul14]

/-- Settles O29: the laws by additivity and `xtime`, the constants as sums of powers of x. -/
theorem gmulLaws : Obligations.GmulLaws :=
  ⟨gmul_comm, gmul_assoc, gmul_xor_right, fun a => ⟨gmul_one a, gmul_zero a, gmul_two a, gmul_three a, gmul_nine a,
    gmul_eleven a, gmul_thirteen a, gmul_fourteen a⟩⟩

/-- The inverse is the one that the S-box is made of (R104). -/
theorem exists_gmul_eq_one {a : Byte} (h : a ≠ 0x00) : ∃ b, gmul a b = 0x01 :=
  ⟨_, gmul_affineInverse_sboxAt a h⟩

theorem eq_of_gmul_eq_one {a b c : Byte} (hb : gmul a b = 0x01) (hc : gmul a c = 0x01) : c = b :=
  calc c = gmul c (gmul a b) := by rw [hb, gmul_one]
    _ = gmul (gmul a c) b := by rw [← gmul_assoc, gmul_comm c a]
    _ = b := by rw [hc, gmul_comm, gmul_one]

theorem xtime_eq_gmul (a : Byte) : xtime a = gmul a 0x02 := (gmul_two a).symm

/-- `xtime` is undone by the product with the inverse of x. -/
theorem gmul_xtime_leftInverse : Function.LeftInverse (gmul · 0x8D) xtime := fun a =>
  calc gmul (xtime a) 0x8D = gmul a (gmul 0x02 0x8D) := by rw [xtime_eq_gmul, gmul_assoc]
    _ = a := gmul_one a

/-- Settles O30: existence from the S-box's construction, uniqueness from the laws of the product. -/
theorem fieldIdentities : Obligations.FieldIdentities := by
  refine ⟨gmul_xor_right, fun a h => ?_, fun a b h => gmul_xtime_leftInverse.injective h,
    Finite.surjective_of_injective gmul_xtime_leftInverse.injective, xtime_eq_gmul⟩
  obtain ⟨b, hb⟩ := exists_gmul_eq_one h
  exact ⟨b, hb, fun c hc => eq_of_gmul_eq_one hb hc⟩

/-- Settles O27: GFMUL reads its two ports; the corner cases are laws of the product. -/
theorem gfmulGivesTheFieldProduct : Obligations.GfmulGivesTheFieldProduct := by
  refine ⟨fun s a b ha hb => ?_, fun a => ⟨gmul_zero a, zero_gmul a, gmul_one a⟩, gmul_comm, rfl, rfl, rfl⟩
  change execGfmul s = _
  rw [execGfmul, ha, hb, onByte_some, onByte_some, complete_eq]

end Sys2Proof.Machine
end

section
/-! SBOX and RCON (R100, R101, R105, R106). -/

namespace Sys2Proof.Machine

/-- Settles O22: the operation reads its port; the table's entries are read off it. -/
theorem sboxReadsItsRom : Obligations.SboxReadsItsRom := by
  refine ⟨fun s a h => ?_, rfl, rfl, rfl, rfl, by decide +kernel⟩
  change execSbox s = _
  rw [execSbox, h, onByte_some, complete_eq]

theorem rconAt_eq_none_iff {m : Roms} {i : Nat} : m.rconAt i = none ↔ i = 0 ∨ 11 ≤ i := by
  unfold Roms.rconAt
  split_ifs <;> simp <;> omega

theorem exec_rcon_of_some {s : State} {a y : Byte} (h : s.inp.a = some [a]) (hy : s.roms.rconAt a.toNat = some y) :
    exec .rcon s = .next (s.respond .ok { y := some y }) := by
  change execRcon s = _
  simp only [execRcon, h, onByte_some, hy, complete_eq]

theorem exec_rcon_of_none {s : State} {a : Byte} (h : s.inp.a = some [a]) (hy : s.roms.rconAt a.toNat = none) :
    exec .rcon s = .fault .rconIndexOutOfDomain := by
  change execRcon s = _
  simp only [execRcon, h, onByte_some, hy]

/-- Settles O26: an index has a constant or has none. -/
theorem rconAnswersInItsDomain : Obligations.RconAnswersInItsDomain := by
  refine ⟨fun s a h h1 h10 => ?_, fun s a h hout => exec_rcon_of_none h (rconAt_eq_none_iff.2 hout), rfl⟩
  obtain ⟨y, hy⟩ := Option.isSome_iff_exists.1 (rconAt_isSome (m := s.roms) ⟨h1, h10⟩)
  exact ⟨y, hy, exec_rcon_of_some h hy⟩

/-- Read off the table. -/
theorem rconAt_standard : ∀ i ∈ List.range' 1 10, ∃ y, Roms.standard.rconAt i = some y ∧ y ≠ 0x00 ∧
    (i < 10 → Roms.standard.rconAt (i + 1) = some (xtime y)) := by
  decide +kernel

/-- Settles O25: the ten entries, and no entry outside their domain. -/
theorem roundConstantsAreThePowersOfX : Obligations.RoundConstantsAreThePowersOfX := by
  refine ⟨rfl, fun i h1 h10 => ?_, fun i y hy => ?_, rfl⟩
  · obtain ⟨y, hy, -, hnext⟩ := rconAt_standard i (by simp; omega)
    rw [hnext h10, hy]
    rfl
  · have hdom : ¬ (i = 0 ∨ 11 ≤ i) := fun h => by
      cases (rconAt_eq_none_iff.2 h).symm.trans hy
    obtain ⟨z, hz, hne, -⟩ := rconAt_standard i (by simp; omega)
    obtain rfl : z = y := Option.some.inj (hz.symm.trans hy)
    exact ⟨hne, by omega⟩

end Sys2Proof.Machine
end

section
/-! The transforms of the State Matrix (R135 to R144). SHIFT_ROWS is a move of bytes; MIX_COLUMNS is linear over XOR, so it
is known on every column from the columns with one byte that is not zero. -/

namespace Sys2Proof.Machine

/-! ShiftRows. -/

/-- The rotation of the rows, byte by byte of the block (R135). -/
theorem fromState_shiftRows_toState (B : Bytes) :
    fromState (shiftRows (toState B)) = shiftIdx.map fun k => B.getD k 0 := rfl

theorem fromState_invShiftRows_toState (B : Bytes) :
    fromState (invShiftRows (toState B)) = invShiftIdx.map fun k => B.getD k 0 := rfl

/-- Settles O33: both operations are layers, and the matrix places are the index tables. -/
theorem shiftRowsMovesBytesByTheIndexTables : Obligations.ShiftRowsMovesBytesByTheIndexTables := by
  intro s B h hB
  constructor
  · change execShiftRows s = _
    rw [execShiftRows, layer_eq _ h hB, fromState_shiftRows_toState]
  · change execInvShiftRows s = _
    rw [execInvShiftRows, layer_eq _ h hB, fromState_invShiftRows_toState]

@[simp] theorem invShiftRows_shiftRows (S : StateMatrix) : invShiftRows (shiftRows S) = S :=
  StateMatrix.ext_get fun r c => by simp

@[simp] theorem shiftRows_invShiftRows (S : StateMatrix) : shiftRows (invShiftRows S) = S :=
  StateMatrix.ext_get fun r c => by simp

/-! SubBytes. -/

@[simp] theorem invSubBytes_subBytes (S : StateMatrix) : invSubBytes Roms.standard (subBytes Roms.standard S) = S :=
  StateMatrix.ext_get fun r c => by rw [invSubBytes_get, subBytes_get, invSboxAt_sboxAt]

@[simp] theorem subBytes_invSubBytes (S : StateMatrix) : subBytes Roms.standard (invSubBytes Roms.standard S) = S :=
  StateMatrix.ext_get fun r c => by rw [subBytes_get, invSubBytes_get, sboxAt_invSboxAt]

theorem subBytes_shiftRows (m : Roms) (S : StateMatrix) : subBytes m (shiftRows S) = shiftRows (subBytes m S) :=
  StateMatrix.ext_get fun r c => by simp

theorem invSubBytes_invShiftRows (m : Roms) (S : StateMatrix) :
    invSubBytes m (invShiftRows S) = invShiftRows (invSubBytes m S) :=
  StateMatrix.ext_get fun r c => by simp

/-! MixColumns as a matrix product. -/

theorem gmul_constants_left (x : Byte) : gmul 0x01 x = x ∧ gmul 0x02 x = mul2 x ∧ gmul 0x03 x = mul3 x ∧
    gmul 0x09 x = mul9 x ∧ gmul 0x0B x = mul11 x ∧ gmul 0x0D x = mul13 x ∧ gmul 0x0E x = mul14 x := by
  simp only [gmul_comm _ x]
  exact ⟨gmul_one x, gmul_two x, gmul_three x, gmul_nine x, gmul_eleven x, gmul_thirteen x, gmul_fourteen x⟩

theorem rowTimes_toBytes {M : List (List Byte)} {r : Nat} {k0 k1 k2 k3 : Byte} (h : M.getD r [] = [k0, k1, k2, k3])
    (w : Word) : rowTimes M r w.toBytes = gmul k0 w.b0 ^^^ gmul k1 w.b1 ^^^ gmul k2 w.b2 ^^^ gmul k3 w.b3 := by
  rw [rowTimes, h]
  simp [Word.toBytes]

/-- The four rows of a matrix times a column. -/
def matrixColumn (M : List (List Byte)) (w : Word) : Word :=
  .ofFn fun r => rowTimes M r.val w.toBytes

/-- A column of `MixColumns` is M times the column (R139, R140). -/
theorem mixColumn_eq_matrixColumn (w : Word) : mixColumn w = matrixColumn mdsRows w := by
  rw [matrixColumn, Word.ofFn]
  ext1 <;> dsimp only [mixColumn] <;> rw [rowTimes_toBytes rfl] <;> simp only [gmul_constants_left]

/-- A column of `InvMixColumns` is the inverse of M times the column (R139, R141). -/
theorem invMixColumn_eq_matrixColumn (w : Word) : invMixColumn w = matrixColumn invMdsRows w := by
  rw [matrixColumn, Word.ofFn]
  ext1 <;> dsimp only [invMixColumn] <;> rw [rowTimes_toBytes rfl] <;> simp only [gmul_constants_left]

/-- The bytes of a block's column. -/
theorem slice_eq_toBytes_col {B : Bytes} (hB : B.length = 16) (c : Fin 4) :
    slice B (4 * c.val) (4 * c.val + 4) = ((toState B).col c).toBytes := by
  obtain ⟨x0, x1, x2, x3, x4, x5, x6, x7, x8, x9, x10, x11, x12, x13, x14, x15, rfl⟩ := length_sixteen hB
  fin_cases c <;> rfl

/-- The matrix times every column, byte by byte of the block. -/
theorem fromState_matrixColumn_toState (M : List (List Byte)) {B : Bytes} (hB : B.length = 16) :
    fromState ⟨matrixColumn M ((toState B).col 0), matrixColumn M ((toState B).col 1),
        matrixColumn M ((toState B).col 2), matrixColumn M ((toState B).col 3)⟩ =
      (List.range 16).map fun i => rowTimes M (i % 4) (slice B (4 * (i / 4)) (4 * (i / 4) + 4)) := by
  simp only [fromState, matrixColumn, ← slice_eq_toBytes_col hB]
  rfl

/-- Settles O34: both operations are layers, and their columns are matrix products. -/
theorem mixColumnsIsTheMatrixProduct : Obligations.MixColumnsIsTheMatrixProduct := by
  intro s B h hB
  rw [← fromState_matrixColumn_toState mdsRows hB, ← fromState_matrixColumn_toState invMdsRows hB]
  simp only [← mixColumn_eq_matrixColumn, ← invMixColumn_eq_matrixColumn]
  exact ⟨layer_eq mixColumns h hB, layer_eq invMixColumns h hB⟩

/-! MixColumns is linear and invertible. -/

theorem mul3_xor (a b : Byte) : mul3 (a ^^^ b) = mul3 a ^^^ mul3 b := by
  simp only [← gmul_three, gmul_xor_left]

theorem mul9_xor (a b : Byte) : mul9 (a ^^^ b) = mul9 a ^^^ mul9 b := by
  simp only [← gmul_nine, gmul_xor_left]

theorem mul11_xor (a b : Byte) : mul11 (a ^^^ b) = mul11 a ^^^ mul11 b := by
  simp only [← gmul_eleven, gmul_xor_left]

theorem mul13_xor (a b : Byte) : mul13 (a ^^^ b) = mul13 a ^^^ mul13 b := by
  simp only [← gmul_thirteen, gmul_xor_left]

theorem mul14_xor (a b : Byte) : mul14 (a ^^^ b) = mul14 a ^^^ mul14 b := by
  simp only [← gmul_fourteen, gmul_xor_left]

theorem mixColumn_xor (v w : Word) : mixColumn (v.xor w) = (mixColumn v).xor (mixColumn w) := by
  ext1 <;> simp only [mixColumn, Word.xor, mul2, xtime_xor, mul3_xor] <;> ac_rfl

theorem invMixColumn_xor (v w : Word) : invMixColumn (v.xor w) = (invMixColumn v).xor (invMixColumn w) := by
  ext1 <;> simp only [invMixColumn, Word.xor, mul9_xor, mul11_xor, mul13_xor, mul14_xor] <;> ac_rfl

/-- The word with byte `a` in place `k` and zeros in the others. -/
def oneByteWord (k : Fin 4) (a : Byte) : Word := .ofFn fun j => if j = k then a else 0x00

theorem oneByteWord_xor (k : Fin 4) (a b : Byte) :
    oneByteWord k (a ^^^ b) = (oneByteWord k a).xor (oneByteWord k b) :=
  Word.ext_get fun j => by
    simp only [oneByteWord, Word.get_xor, Word.get_ofFn]
    split_ifs <;> simp

/-- A word is the sum of its bytes, each alone in its place. -/
theorem eq_xor_oneByteWord (w : Word) : w = ((oneByteWord 0 w.b0).xor (oneByteWord 1 w.b1)).xor
    ((oneByteWord 2 w.b2).xor (oneByteWord 3 w.b3)) := by
  ext1 <;> simp [oneByteWord, Word.ofFn, Word.xor]

/-- What holds of a zero byte and of the powers of x in every place, and of a sum when of its terms, holds of every
word. -/
theorem word_induction {P : Word → Prop} (single : ∀ k, ∀ p ∈ 0x00 :: powersOfX, P (oneByteWord k p))
    (add : ∀ v w, P v → P w → P (v.xor w)) (w : Word) : P w := by
  have hone (k : Fin 4) (a : Byte) : P (oneByteWord k a) := by
    induction a using byte_induction with
    | zero => exact single k _ List.mem_cons_self
    | power p hp => exact single k p (List.mem_cons_of_mem _ hp)
    | add a b ha hb =>
      rw [oneByteWord_xor]
      exact add _ _ ha hb
  rw [eq_xor_oneByteWord w]
  exact add _ _ (add _ _ (hone 0 _) (hone 1 _)) (add _ _ (hone 2 _) (hone 3 _))

/-- Read off the powers of x in the four places: the two matrices are inverse to each other. -/
theorem mixColumn_oneByteWord : ∀ k, ∀ p ∈ 0x00 :: powersOfX,
    invMixColumn (mixColumn (oneByteWord k p)) = oneByteWord k p ∧
      mixColumn (invMixColumn (oneByteWord k p)) = oneByteWord k p := by
  decide +kernel

@[simp] theorem invMixColumn_mixColumn (w : Word) : invMixColumn (mixColumn w) = w := by
  induction w using word_induction with
  | single k p hp => exact (mixColumn_oneByteWord k p hp).1
  | add v w hv hw => rw [mixColumn_xor, invMixColumn_xor, hv, hw]

@[simp] theorem mixColumn_invMixColumn (w : Word) : mixColumn (invMixColumn w) = w := by
  induction w using word_induction with
  | single k p hp => exact (mixColumn_oneByteWord k p hp).2
  | add v w hv hw => rw [invMixColumn_xor, mixColumn_xor, hv, hw]

@[simp] theorem invMixColumns_mixColumns (S : StateMatrix) : invMixColumns (mixColumns S) = S := by
  simp [mixColumns, invMixColumns]

@[simp] theorem mixColumns_invMixColumns (S : StateMatrix) : mixColumns (invMixColumns S) = S := by
  simp [mixColumns, invMixColumns]

/-- A map of the columns that is linear on each column is linear. -/
theorem mixColumns_xor (S K : StateMatrix) : mixColumns (.ofFn fun r c => S.get r c ^^^ K.get r c) =
    .ofFn fun r c => (mixColumns S).get r c ^^^ (mixColumns K).get r c := by
  ext1 <;> exact mixColumn_xor _ _

theorem invMixColumns_xor (S K : StateMatrix) : invMixColumns (.ofFn fun r c => S.get r c ^^^ K.get r c) =
    .ofFn fun r c => (invMixColumns S).get r c ^^^ (invMixColumns K).get r c := by
  ext1 <;> exact invMixColumn_xor _ _

/-- Read off the columns of four equal bytes: the rows of both matrices sum to 1. -/
theorem mixColumn_constant : ∀ a : Byte,
    mixColumn ⟨a, a, a, a⟩ = ⟨a, a, a, a⟩ ∧ invMixColumn ⟨a, a, a, a⟩ = ⟨a, a, a, a⟩ := by
  decide +kernel

theorem col_eq_constant {S : StateMatrix} (h : ∀ r c, S.get r c = S.get 0 c) (c : Fin 4) :
    S.col c = ⟨S.get 0 c, S.get 0 c, S.get 0 c, S.get 0 c⟩ :=
  Word.ext_get fun r => (h r c).trans (by fin_cases r <;> rfl)

theorem mixColumns_constant {S : StateMatrix} (h : ∀ r c, S.get r c = S.get 0 c) :
    mixColumns S = S ∧ invMixColumns S = S := by
  have hcol (c : Fin 4) : mixColumn (S.col c) = S.col c ∧ invMixColumn (S.col c) = S.col c := by
    rw [col_eq_constant h c]
    exact mixColumn_constant _
  constructor <;> ext1
  · exact (hcol 0).1
  · exact (hcol 1).1
  · exact (hcol 2).1
  · exact (hcol 3).1
  · exact (hcol 0).2
  · exact (hcol 1).2
  · exact (hcol 2).2
  · exact (hcol 3).2

/-- Settles O35: the laws of the three transforms. -/
theorem transformLaws : Obligations.TransformLaws :=
  ⟨fun S => ⟨invSubBytes_subBytes S, subBytes_invSubBytes S, invShiftRows_shiftRows S, shiftRows_invShiftRows S,
      invMixColumns_mixColumns S, mixColumns_invMixColumns S⟩,
    fun m S => ⟨subBytes_shiftRows m S, invSubBytes_invShiftRows m S⟩,
    fun S K => ⟨mixColumns_xor S K, invMixColumns_xor S K⟩, fun _ => mixColumns_constant⟩

end Sys2Proof.Machine
end

section
/-! KS128, KS192 and KS256 (R163 to R165). -/

namespace Sys2Proof.Machine

/-- Settles O37: each of the three is the schedule of its variant, of the variant's length. -/
theorem fixedVariantsAnswerTheSchedule : Obligations.FixedVariantsAnswerTheSchedule := fun s key h =>
  ⟨fun hkey => ⟨scheduleOf_eq (v := .aes128) h hkey, length_keySchedule s.roms .aes128 key⟩,
    fun hkey => ⟨scheduleOf_eq (v := .aes192) h hkey, length_keySchedule s.roms .aes192 key⟩,
    fun hkey => ⟨scheduleOf_eq (v := .aes256) h hkey, length_keySchedule s.roms .aes256 key⟩⟩

end Sys2Proof.Machine
end

section
/-! The inverse cipher (R190, R192, R194). AddRoundKey undoes itself, so each round of `InvCipher` undoes the round of
`Cipher` with the same key, between the states before their byte substitutions. -/

namespace Sys2Proof.Machine

@[simp] theorem addRoundKey_addRoundKey (W : List Word) (r : Nat) (S : StateMatrix) :
    addRoundKey W r (addRoundKey W r S) = S :=
  StateMatrix.ext_get fun k c => by simp

/-- In byte form (R190). -/
theorem fromState_addRoundKey (W : List Word) (r : Nat) (S : StateMatrix) :
    fromState (addRoundKey W r S) = xorBytes (fromState S)
      (flattenWords [wordAt W (4 * r), wordAt W (4 * r + 1), wordAt W (4 * r + 2), wordAt W (4 * r + 3)]) := rfl

/-- Settles O40: the byte form, the matrix form, and that XOR cancels. -/
theorem addRoundKeyXorsTheRoundKey : Obligations.AddRoundKeyXorsTheRoundKey :=
  ⟨fromState_addRoundKey, fun W r S k c => addRoundKey_get W r S k c, addRoundKey_addRoundKey⟩

theorem undoRounds_zero (m : Roms) (W : List Word) (S : StateMatrix) : undoRounds m W 0 S = S := rfl

theorem undoRounds_succ (m : Roms) (W : List Word) (n : Nat) (S : StateMatrix) :
    undoRounds m W (n + 1) S = undoRounds m W n (invCipherRound m W S (n + 1)) := rfl

theorem foldl_invCipherRound_eq_undoRounds (m : Roms) (W : List Word) (n : Nat) (S : StateMatrix) :
    (List.range' 1 n).reverse.foldl (invCipherRound m W) S = undoRounds m W n S := by
  induction n generalizing S with
  | zero => rfl
  | succ n ih =>
    rw [List.range'_1_concat, List.reverse_concat, List.foldl_cons, ih, undoRounds_succ, Nat.add_comm 1 n]

/-- For every schedule and number of rounds: rounds nr - 1 down to 1, and the last one without InvMixColumns. -/
theorem invCipher_eq (m : Roms) (W : List Word) (nr : Nat) (S : StateMatrix) : invCipher m W nr S =
    addRoundKey W 0 (invSubBytes m (invShiftRows (undoRounds m W (nr - 1) (addRoundKey W nr S)))) := by
  rw [invCipher, foldl_invCipherRound_eq_undoRounds]

/-- Settles O42: deciphering a block is the inverse cipher under the variant's schedule. -/
theorem invCipherIsItsRoundSequence : Obligations.InvCipherIsItsRoundSequence := fun m v key B => by
  rw [decryptWith, invCipher_eq]

section
variable (W : List Word)

/-- Undoing n rounds leads from the start of round n + 1 to the start of round 1. -/
theorem undoRounds_stateAfterRounds (S : StateMatrix) (n : Nat) :
    undoRounds Roms.standard W n (shiftRows (subBytes Roms.standard (stateAfterRounds Roms.standard W S n))) =
      shiftRows (subBytes Roms.standard (addRoundKey W 0 S)) := by
  induction n with
  | zero => rfl
  | succ n ih =>
    have hround : invCipherRound Roms.standard W
        (shiftRows (subBytes Roms.standard (stateAfterRounds Roms.standard W S (n + 1)))) (n + 1) =
        shiftRows (subBytes Roms.standard (stateAfterRounds Roms.standard W S n)) := by
      simp [invCipherRound, stateAfterRounds_succ, cipherRound]
    rw [undoRounds_succ, hround, ih]

/-- Running n rounds on what n undone rounds lead to gives back where they began. -/
theorem stateAfterRounds_undoRounds (n : Nat) (S : StateMatrix) :
    shiftRows (subBytes Roms.standard (stateAfterRounds Roms.standard W
      (addRoundKey W 0 (invSubBytes Roms.standard (invShiftRows (undoRounds Roms.standard W n S)))) n)) = S := by
  induction n generalizing S with
  | zero => simp [stateAfterRounds_zero, undoRounds_zero]
  | succ n ih =>
    rw [undoRounds_succ, stateAfterRounds_succ, cipherRound, ih]
    simp [invCipherRound]

theorem invCipher_cipher (nr : Nat) (S : StateMatrix) :
    invCipher Roms.standard W nr (cipher Roms.standard W nr S) = S := by
  rw [cipher_eq, invCipher_eq, addRoundKey_addRoundKey, undoRounds_stateAfterRounds]
  simp

theorem cipher_invCipher (nr : Nat) (S : StateMatrix) :
    cipher Roms.standard W nr (invCipher Roms.standard W nr S) = S := by
  rw [invCipher_eq, cipher_eq, stateAfterRounds_undoRounds, addRoundKey_addRoundKey]

end

/-- Deciphering undoes enciphering (R194). -/
theorem decryptWith_encryptWith (v : Variant) (key : Bytes) {X : Bytes} (h : X.length = 16) :
    decryptWith Roms.standard v key (encryptWith Roms.standard v key X) = X := by
  rw [decryptWith, encryptWith, toState_fromState, invCipher_cipher, fromState_toState h]

theorem encryptWith_decryptWith (v : Variant) (key : Bytes) {X : Bytes} (h : X.length = 16) :
    encryptWith Roms.standard v key (decryptWith Roms.standard v key X) = X := by
  rw [decryptWith, encryptWith, toState_fromState, cipher_invCipher, fromState_toState h]

end Sys2Proof.Machine
end

section
/-! ENCRYPT_BLOCK and DECRYPT_BLOCK (R194 to R196): the checks in their order (R286), then the cipher. -/

namespace Sys2Proof.Machine

theorem variantOf_of_not_validKey {key : Bytes} (h : ¬ validKey key) : variantOf key = .error .invalidKeyLength :=
  variantOf_eq_error.2 ⟨rfl, by simpa [validKey] using h⟩

section
variable {key : Bytes} {v : Variant} {s : State} {block : Bytes} {f : Variant → Bytes → Bytes → Bytes}

theorem checkBlock_of_length (h : block.length = 16) : checkBlock block = .ok () := checkBlock_eq_ok.2 h

theorem checkBlock_of_length_ne (h : block.length ≠ 16) : checkBlock block = .error .invalidBlockLength :=
  checkBlock_eq_error.2 ⟨rfl, h⟩

/-- A block operation behind its ports. -/
theorem blockOp_eq (hb : s.inp.block = some block) (hk : s.inp.key = some key) : blockOp f s =
    whenValid (validateBlock key block) s fun v => complete { out := some (f v key block) } s := by
  rw [blockOp, hb, hk, onPort_some, onPort_some]

theorem blockOp_of_not_validKey (hb : s.inp.block = some block) (hk : s.inp.key = some key) (h : ¬ validKey key) :
    blockOp f s = .next (s.respond (.err .invalidKeyLength) {}) := by
  rw [blockOp_eq hb hk, validateBlock, variantOf_of_not_validKey h, thenCheck_error, whenValid_error]

theorem blockOp_of_length_ne (hb : s.inp.block = some block) (hk : s.inp.key = some key) (h : validKey key)
    (hlen : block.length ≠ 16) : blockOp f s = .next (s.respond (.err .invalidBlockLength) {}) := by
  obtain ⟨v, hv⟩ := exists_variant_of_validKey h
  rw [blockOp_eq hb hk, validateBlock, variantOf_eq_ok.2 hv, checkBlock_of_length_ne hlen, thenCheck_ok_error,
    whenValid_error]

theorem blockOp_of_valid (hb : s.inp.block = some block) (hk : s.inp.key = some key) (hv : key.length = v.keyBytes)
    (hlen : block.length = 16) : blockOp f s = .next (s.respond .ok { out := some (f v key block) }) := by
  rw [blockOp_eq hb hk, validateBlock, variantOf_eq_ok.2 hv, checkBlock_of_length hlen, thenCheck_ok_ok, whenValid_ok,
    complete_eq]

end

/-- Settles O43: the cases of the shared shape, at `E`. -/
theorem encryptBlockChecksThenEnciphers : Obligations.EncryptBlockChecksThenEnciphers := fun s _ _ hb hk =>
  ⟨blockOp_of_not_validKey (f := encryptWith s.roms) hb hk, blockOp_of_length_ne (f := encryptWith s.roms) hb hk,
    fun _ => blockOp_of_valid (f := encryptWith s.roms) hb hk⟩

/-- Settles O44: the cases of the shared shape, at `D`. -/
theorem decryptBlockChecksThenDeciphers : Obligations.DecryptBlockChecksThenDeciphers := fun s _ _ hb hk =>
  ⟨blockOp_of_not_validKey (f := decryptWith s.roms) hb hk, blockOp_of_length_ne (f := decryptWith s.roms) hb hk,
    fun _ => blockOp_of_valid (f := decryptWith s.roms) hb hk⟩

/-- A block operation whose function undoes another's gives back the block that went in. -/
theorem blockOp_roundTrip {f g : Variant → Bytes → Bytes → Bytes} {s : State} {block key : Bytes}
    (hb : s.inp.block = some block) (hk : s.inp.key = some key) (hlen : block.length = 16) (h : validKey key)
    (hf : ∀ v, (f v key block).length = 16) (hgf : ∀ v, g v key (f v key block) = block) :
    ∃ c, blockOp f s = .next (s.respond .ok { out := some c }) ∧
      blockOp g (s.withPort .block c) = .next ((s.withPort .block c).respond .ok { out := some block }) := by
  obtain ⟨v, hv⟩ := exists_variant_of_validKey h
  refine ⟨f v key block, blockOp_of_valid hb hk hv hlen, ?_⟩
  have hback : blockOp g (s.withPort .block (f v key block)) =
      .next ((s.withPort .block (f v key block)).respond .ok { out := some (g v key (f v key block)) }) :=
    blockOp_of_valid rfl hk hv (hf v)
  rw [hback, hgf]

/-- Settles O45: the two block functions of a key undo each other. -/
theorem blockRoundTrip : Obligations.BlockRoundTrip := by
  intro s block key hm hb hk hlen h
  constructor
  · obtain ⟨c, henc, hdec⟩ := blockOp_roundTrip (f := encryptWith s.roms) (g := decryptWith s.roms) hb hk hlen h
      (fun v => length_encryptWith _ v _ _) (fun v => by rw [hm, decryptWith_encryptWith v key hlen])
    exact ⟨c, henc, hdec⟩
  · obtain ⟨p, hdec, henc⟩ := blockOp_roundTrip (f := decryptWith s.roms) (g := encryptWith s.roms) hb hk hlen h
      (fun v => length_decryptWith _ v _ _) (fun v => by rw [hm, encryptWith_decryptWith v key hlen])
    exact ⟨p, hdec, henc⟩

end Sys2Proof.Machine
end

section
/-! Padding (R222, R223, R225). A byte sequence is all zeros or ends in a byte that is not zero and then zeros; what
unpadding does to each is said once, and a padded message is again of one of these forms. -/

namespace Sys2Proof.Machine

theorem zeros_add (m n : Nat) : zeros (m + n) = zeros m ++ zeros n := List.replicate_add ..

theorem reverse_zeros (z : Nat) : (zeros z).reverse = zeros z := List.reverse_replicate

/-- Every sequence is zeros only, or ends in its last byte that is not zero. -/
theorem eq_zeros_or_exists_last (M : Bytes) :
    (∃ z, M = zeros z) ∨ ∃ (A : Bytes) (b : Byte) (z : Nat), b ≠ 0x00 ∧ M = A ++ [b] ++ zeros z := by
  induction M using List.reverseRecOn with
  | nil => exact .inl ⟨0, rfl⟩
  | append_singleton M x ih =>
    by_cases hx : x = 0x00
    · subst hx
      obtain ⟨z, rfl⟩ | ⟨A, b, z, hb, rfl⟩ := ih
      · exact .inl ⟨z + 1, (zeros_add z 1).symm⟩
      · exact .inr ⟨A, b, z + 1, hb, by rw [zeros_add, ← List.append_assoc]; rfl⟩
    · exact .inr ⟨M, x, 0, hx, by simp [zeros]⟩

theorem unpad_zeros (z : Nat) : unpad (zeros z) = none := by
  have hrest : unpadRest (zeros z) = [] := by simp [unpadRest, zeros]
  rw [unpad, hrest]

/-- The zeros after a byte that is not zero are what is popped. -/
theorem reverse_append_zeros (A : Bytes) (b : Byte) (z : Nat) :
    (A ++ [b] ++ zeros z).reverse = zeros z ++ b :: A.reverse := by
  simp [reverse_zeros]

theorem unpad_append_zeros (A : Bytes) {b : Byte} (z : Nat) (hb : b ≠ 0x00) :
    unpad (A ++ [b] ++ zeros z) = some (if b.toNat = z then A else A ++ [b]) := by
  have hzero : ∀ x ∈ zeros z, (x == 0x00) = true := fun x hx => beq_iff_eq.2 (List.eq_of_mem_replicate hx)
  have hrest : unpadRest (A ++ [b] ++ zeros z) = b :: A.reverse := by
    rw [unpadRest, reverse_append_zeros, List.dropWhile_append_of_pos hzero, List.dropWhile_cons_of_neg (by simpa using hb)]
  have hcount : unpadCount (A ++ [b] ++ zeros z) = z := by
    rw [unpadCount, reverse_append_zeros, List.takeWhile_append_of_pos hzero,
      List.takeWhile_cons_of_neg (by simpa using hb), List.append_nil, length_zeros]
  rw [unpad, hrest]
  simp only [hcount, List.reverse_reverse]

/-- Settles O47: the two forms of a sequence. -/
theorem unpadDropsZerosAndMarker : Obligations.UnpadDropsZerosAndMarker :=
  ⟨unpad_zeros, fun A _ z hb => unpad_append_zeros A z hb⟩

/-- Unpadding has no result exactly on a sequence of zeros. -/
theorem unpad_eq_none_iff {P : Bytes} : unpad P = none ↔ ∀ x ∈ P, x = 0x00 := by
  obtain ⟨z, rfl⟩ | ⟨A, b, z, hb, rfl⟩ := eq_zeros_or_exists_last P
  · exact ⟨fun _ x hx => List.eq_of_mem_replicate hx, fun _ => unpad_zeros z⟩
  · rw [unpad_append_zeros A z hb]
    exact ⟨nofun, fun h => absurd (h b (by simp)) hb⟩

theorem toNat_marker (M : Bytes) : (BitVec.ofNat 8 (15 - M.length % 16) : Byte).toNat = 15 - M.length % 16 := by
  rw [BitVec.toNat_ofNat]
  omega

theorem length_pad (M : Bytes) : (pad M).length = 16 * (M.length / 16 + 1) := by
  simp only [pad, List.length_append, List.length_singleton, length_zeros]
  omega

/-- Settles O46: the definition of padding, with the marker's value and the length. -/
theorem padAddsMarkerAndZeros : Obligations.PadAddsMarkerAndZeros := fun M =>
  ⟨15 - M.length % 16, rfl, rfl, toNat_marker M, length_pad M⟩

/-- With a marker that is not zero, the count of zeros after it is its value. -/
theorem unpad_pad_of_ne {M : Bytes} (h : M.length % 16 ≠ 15) : unpad (pad M) = some M := by
  have hmarker : BitVec.ofNat 8 (15 - M.length % 16) ≠ (0x00 : Byte) := fun heq => by
    have hnat := toNat_marker M
    rw [heq] at hnat
    change 0 = _ at hnat
    omega
  rw [pad, unpad_append_zeros M _ hmarker, toNat_marker, if_pos rfl]

/-- With a length of 15 modulo 16 the padding is one zero byte. -/
theorem pad_of_eq {M : Bytes} (h : M.length % 16 = 15) : pad M = M ++ zeros 1 := by
  rw [pad, h]
  simp [zeros]

theorem unpad_pad_zeros {z : Nat} (h : z % 16 = 15) : unpad (pad (zeros z)) = none := by
  rw [pad_of_eq (by simpa using h), ← zeros_add, unpad_zeros]

theorem unpad_pad_append_zeros {A : Bytes} {b : Byte} {z : Nat} (hb : b ≠ 0x00)
    (h : (A ++ [b] ++ zeros z).length % 16 = 15) :
    unpad (pad (A ++ [b] ++ zeros z)) = some (if b.toNat = 1 + z then A else A ++ [b]) := by
  rw [pad_of_eq h, List.append_assoc, ← zeros_add, unpad_append_zeros A _ hb, Nat.add_comm z 1]

theorem getLast?_append_zeros_succ (A : Bytes) (z : Nat) : (A ++ zeros (z + 1)).getLast? = some 0x00 := by
  rw [zeros_add, ← List.append_assoc]
  exact List.getLast?_concat

/-- A message of length 15 modulo 16 comes back exactly if its last byte is neither 0x00 nor 0x01. -/
theorem unpad_pad_of_eq_iff {M : Bytes} (h : M.length % 16 = 15) :
    unpad (pad M) = some M ↔ ∀ x, M.getLast? = some x → x ≠ 0x00 ∧ x ≠ 0x01 := by
  obtain ⟨z, rfl⟩ | ⟨A, b, z, hb, rfl⟩ := eq_zeros_or_exists_last M
  · rw [length_zeros] at h
    obtain ⟨z, rfl⟩ : ∃ y, z = y + 1 := ⟨z - 1, by omega⟩
    rw [unpad_pad_zeros h]
    exact ⟨nofun, fun hlast => absurd rfl (hlast 0x00 (getLast?_append_zeros_succ [] z)).1⟩
  · rw [unpad_pad_append_zeros hb h]
    cases z with
    | succ z =>
      have hlen : (if b.toNat = 1 + (z + 1) then A else A ++ [b]) ≠ A ++ [b] ++ zeros (z + 1) := fun heq => by
        have := congrArg List.length heq
        split_ifs at this <;> simp at this
      exact ⟨fun heq => absurd (Option.some.inj heq) hlen,
        fun hlast => absurd rfl (hlast 0x00 (getLast?_append_zeros_succ _ z)).1⟩
    | zero =>
      have hone : b.toNat = 1 ↔ b = 0x01 := by rw [← BitVec.toNat_inj]; rfl
      by_cases h1 : b = 0x01
      · simp [zeros, h1]
      · simpa [zeros, hone] using fun _ => hb

theorem unpad_pad_iff (M : Bytes) : unpad (pad M) = some M ↔ padReversible M := by
  by_cases h : M.length % 16 = 15
  · exact (unpad_pad_of_eq_iff h).trans ⟨fun hlast _ => hlast, fun hrev => hrev h⟩
  · exact ⟨fun _ h15 => absurd h15 h, fun _ => unpad_pad_of_ne h⟩

/-- Settles O48: by the length modulo 16 and the form of the message. -/
theorem unpadAfterPadLaw : Obligations.UnpadAfterPadLaw :=
  ⟨fun _ => unpad_pad_of_ne, fun _ => unpad_pad_zeros, fun _ _ _ => unpad_pad_append_zeros, unpad_pad_iff⟩

end Sys2Proof.Machine
end

section
/-! Messages block by block (R49). A message of whole blocks is empty or begins with a block; any message is one short block
or begins with a whole one. -/

namespace Sys2Proof.Machine

theorem slice_cons_succ (x : Byte) (L : Bytes) (lo hi : Nat) : slice (x :: L) (lo + 1) (hi + 1) = slice L lo hi := by
  simp [slice]

theorem slice_append_zero {X : Bytes} {n : Nat} (hX : X.length = n) (Y : Bytes) : slice (X ++ Y) 0 n = X := by
  simp [slice, hX]

/-- The first block of a sequence. -/
theorem slice_block_zero {X : Bytes} (hX : X.length = 16) (Y : Bytes) : slice (X ++ Y) (16 * 0) (16 * 0 + 16) = X :=
  slice_append_zero hX Y

/-- A later block of a sequence. -/
theorem slice_block_succ {X : Bytes} (hX : X.length = 16) (Y : Bytes) (b : Nat) :
    slice (X ++ Y) (16 * (b + 1)) (16 * (b + 1) + 16) = slice Y (16 * b) (16 * b + 16) := by
  rw [slice, slice, Nat.mul_succ, Nat.add_comm (16 * b) 16, ← hX, List.drop_length_add_append, hX]
  congr 1
  omega

/-- The block before block b, where X stands before the first. -/
theorem slice_block_before {X : Bytes} (hX : X.length = 16) (Y : Bytes) (b : Nat) :
    slice (X ++ Y) (16 * b) (16 * b + 16) = if b = 0 then X else slice Y (16 * (b - 1)) (16 * b) := by
  cases b with
  | zero => exact slice_block_zero hX Y
  | succ b => exact slice_block_succ hX Y b

/-- A sequence of whole blocks. -/
inductive WholeBlocks : Bytes → Prop where
  | nil : WholeBlocks []
  | append {X M : Bytes} (hX : X.length = 16) (hM : WholeBlocks M) : WholeBlocks (X ++ M)

theorem wholeBlocks_of_length {M : Bytes} {n : Nat} (h : M.length = 16 * n) : WholeBlocks M := by
  induction n generalizing M with
  | zero =>
    rw [List.eq_nil_of_length_eq_zero h]
    exact .nil
  | succ n ih =>
    rw [← List.take_append_drop 16 M]
    exact .append (by rw [List.length_take]; omega) (ih (by rw [List.length_drop]; omega))

theorem wholeBlocks_of_mod {M : Bytes} (h : M.length % 16 = 0) : WholeBlocks M :=
  wholeBlocks_of_length (Nat.mul_div_cancel' (Nat.dvd_of_mod_eq_zero h)).symm

theorem wholeBlocks_pad (M : Bytes) : WholeBlocks (pad M) := wholeBlocks_of_length (length_pad M)

/-- What holds of a message of at most one block, and of a block before a message of which it holds, holds of every
message. -/
theorem blocks_induction {P : Bytes → Prop} (short : ∀ M, M.length ≤ 16 → P M)
    (append : ∀ X M, X.length = 16 → P M → P (X ++ M)) (M : Bytes) : P M := by
  by_cases h : M.length ≤ 16
  · exact short M h
  · rw [← List.take_append_drop 16 M]
    exact append _ _ (by rw [List.length_take]; omega) (blocks_induction short append (M.drop 16))
termination_by M.length
decreasing_by rw [List.length_drop]; omega

end Sys2Proof.Machine
end

section
/-! ECB and CBC on the blocks of a message (R230, R231, R240, R241), for block functions `E` and `D` that give 16 bytes. -/

namespace Sys2Proof.Machine

section
variable {f g : Bytes → Bytes} {X M : Bytes}

theorem ecbMap_nil : ecbMap f [] = [] := rfl

theorem ecbMap_append (hX : X.length = 16) : ecbMap f (X ++ M) = f X ++ ecbMap f M := by
  rw [ecbMap, blocksOf_append hX, List.flatMap_cons, ecbMap]

theorem length_ecbMap (hf : ∀ X, (f X).length = 16) (h : WholeBlocks M) : (ecbMap f M).length = M.length := by
  induction h with
  | nil => rfl
  | append hX hM ih => rw [ecbMap_append hX, List.length_append, List.length_append, hf, hX, ih]

theorem slice_ecbMap (hf : ∀ X, (f X).length = 16) (h : WholeBlocks M) {b : Nat} (hb : 16 * b < M.length) :
    slice (ecbMap f M) (16 * b) (16 * b + 16) = f (slice M (16 * b) (16 * b + 16)) := by
  induction h generalizing b with
  | nil => exact absurd hb (Nat.not_lt_zero _)
  | append hX hM ih =>
    rw [ecbMap_append hX]
    cases b with
    | zero => rw [slice_block_zero (hf _), slice_block_zero hX]
    | succ b =>
      rw [List.length_append, hX] at hb
      rw [slice_block_succ (hf _), slice_block_succ hX, ih (by omega)]

/-- ECB with a function that undoes the first on every block. -/
theorem ecbMap_ecbMap (hf : ∀ X, (f X).length = 16) (hgf : ∀ X, X.length = 16 → g (f X) = X) (h : WholeBlocks M) :
    ecbMap g (ecbMap f M) = M := by
  induction h with
  | nil => rw [ecbMap_nil, ecbMap_nil]
  | append hX hM ih => rw [ecbMap_append hX, ecbMap_append (hf _), hgf _ hX, ih]

end

section
variable {E D : Bytes → Bytes} {P X M : Bytes}

theorem cbcEncrypt_append (hX : X.length = 16) : cbcEncrypt E P (blocksOf (X ++ M)) =
    E (xorBytes X P) ++ cbcEncrypt E (E (xorBytes X P)) (blocksOf M) := by
  rw [blocksOf_append hX, cbcEncrypt]

theorem cbcDecrypt_append (hX : X.length = 16) :
    cbcDecrypt D P (blocksOf (X ++ M)) = xorBytes (D X) P ++ cbcDecrypt D X (blocksOf M) := by
  rw [blocksOf_append hX, cbcDecrypt]

theorem length_cbcEncrypt (hE : ∀ X, (E X).length = 16) (h : WholeBlocks M) :
    (cbcEncrypt E P (blocksOf M)).length = M.length := by
  induction h generalizing P with
  | nil => rfl
  | append hX hM ih => rw [cbcEncrypt_append hX, List.length_append, List.length_append, hE, hX, ih]

/-- Each block is chained to the block before it in the IV followed by the output. -/
theorem slice_cbcEncrypt (hE : ∀ X, (E X).length = 16) (hP : P.length = 16) (h : WholeBlocks M) {b : Nat}
    (hb : 16 * b < M.length) : slice (cbcEncrypt E P (blocksOf M)) (16 * b) (16 * b + 16) =
      E (xorBytes (slice M (16 * b) (16 * b + 16))
        (slice (P ++ cbcEncrypt E P (blocksOf M)) (16 * b) (16 * b + 16))) := by
  induction h generalizing P b with
  | nil => exact absurd hb (Nat.not_lt_zero _)
  | append hX hM ih =>
    rw [cbcEncrypt_append hX]
    cases b with
    | zero => rw [slice_block_zero (hE _), slice_block_zero hX, slice_block_zero hP]
    | succ b =>
      rw [List.length_append, hX] at hb
      rw [slice_block_succ (hE _), slice_block_succ hX, slice_block_succ hP, ih (hE _) (by omega)]

theorem length_xorBytes_block (hX : X.length = 16) (hP : P.length = 16) : (xorBytes X P).length = 16 := by
  rw [length_xorBytes, hX, hP, min_self]

theorem length_cbcDecrypt (hD : ∀ X, (D X).length = 16) (hP : P.length = 16) (h : WholeBlocks M) :
    (cbcDecrypt D P (blocksOf M)).length = M.length := by
  induction h generalizing P with
  | nil => rfl
  | append hX hM ih =>
    rw [cbcDecrypt_append hX, List.length_append, List.length_append, length_xorBytes_block (hD _) hP, hX, ih hX]

/-- Each block is unchained from the block before it in the IV followed by the message. -/
theorem slice_cbcDecrypt (hD : ∀ X, (D X).length = 16) (hP : P.length = 16) (h : WholeBlocks M) {b : Nat}
    (hb : 16 * b < M.length) : slice (cbcDecrypt D P (blocksOf M)) (16 * b) (16 * b + 16) =
      xorBytes (D (slice M (16 * b) (16 * b + 16))) (slice (P ++ M) (16 * b) (16 * b + 16)) := by
  induction h generalizing P b with
  | nil => exact absurd hb (Nat.not_lt_zero _)
  | append hX hM ih =>
    rw [cbcDecrypt_append hX]
    cases b with
    | zero =>
      rw [slice_block_zero (length_xorBytes_block (hD _) hP), slice_block_zero hX, slice_block_zero hP]
    | succ b =>
      rw [List.length_append, hX] at hb
      rw [slice_block_succ (length_xorBytes_block (hD _) hP), slice_block_succ hX, slice_block_succ hP, ih hX (by omega)]

/-- CBC decryption with a function that undoes the first on every block. -/
theorem cbcDecrypt_cbcEncrypt (hE : ∀ X, (E X).length = 16) (hDE : ∀ X, X.length = 16 → D (E X) = X)
    (hP : P.length = 16) (h : WholeBlocks M) : cbcDecrypt D P (blocksOf (cbcEncrypt E P (blocksOf M))) = M := by
  induction h generalizing P with
  | nil => rw [blocksOf_nil, cbcEncrypt, blocksOf_nil, cbcDecrypt]
  | append hX hM ih =>
    rw [cbcEncrypt_append hX, cbcDecrypt_append (hE _), hDE _ (length_xorBytes_block hX hP),
      xorBytes_cancel (hX.trans hP.symm).le, ih (hE _)]

end

end Sys2Proof.Machine
end

section
/-! CFB byte by byte (R251, R252, C6). -/

namespace Sys2Proof.Machine

section
variable (E : Bytes → Bytes)

/-- The feedback register holds the 16 bytes before the next place. -/
theorem slice_shiftFeedback {F : Bytes} (hF : F.length = 16) (c : Byte) (R : Bytes) (i : Nat) :
    slice (F ++ c :: R) (i + 1) (i + 1 + 16) = slice (shiftFeedback F c ++ R) i (i + 16) := by
  cases F with
  | nil => cases hF
  | cons x F =>
    rw [List.cons_append, Nat.add_right_comm, slice_cons_succ]
    simp [shiftFeedback]

theorem length_shiftFeedback_block {F : Bytes} (hF : F.length = 16) (c : Byte) : (shiftFeedback F c).length = 16 :=
  (length_shiftFeedback F c (List.ne_nil_of_length_pos (by omega))).trans hF

theorem getElem?_cfbEncrypt {F : Bytes} (hF : F.length = 16) (msg : Bytes) (i : Nat) :
    (cfbEncrypt E F msg)[i]? =
      (msg[i]?).map fun x => keystreamByte E (slice (F ++ cfbEncrypt E F msg) i (i + 16)) ^^^ x := by
  induction msg generalizing F i with
  | nil => rfl
  | cons x msg ih =>
    simp only [cfbEncrypt]
    cases i with
    | zero => simp [slice_append_zero hF]
    | succ i =>
      rw [slice_shiftFeedback hF, List.getElem?_cons_succ, List.getElem?_cons_succ]
      exact ih (length_shiftFeedback_block hF _) i

theorem getElem?_cfbDecrypt {F : Bytes} (hF : F.length = 16) (msg : Bytes) (i : Nat) :
    (cfbDecrypt E F msg)[i]? = (msg[i]?).map fun c => keystreamByte E (slice (F ++ msg) i (i + 16)) ^^^ c := by
  induction msg generalizing F i with
  | nil => rfl
  | cons c msg ih =>
    simp only [cfbDecrypt]
    cases i with
    | zero => simp [slice_append_zero hF]
    | succ i =>
      rw [slice_shiftFeedback hF, List.getElem?_cons_succ, List.getElem?_cons_succ]
      exact ih (length_shiftFeedback_block hF _) i

theorem xor_xor_cancel_left (k x : Byte) : k ^^^ (k ^^^ x) = x := by
  rw [← BitVec.xor_assoc, BitVec.xor_self, BitVec.zero_xor]

/-- Decryption shifts in the ciphertext bytes that encryption shifted in. -/
theorem cfbDecrypt_cfbEncrypt (F msg : Bytes) : cfbDecrypt E F (cfbEncrypt E F msg) = msg := by
  induction msg generalizing F with
  | nil => rfl
  | cons x msg ih => simp only [cfbEncrypt, cfbDecrypt, xor_xor_cancel_left, ih]

/-- A slice does not see a byte outside it. -/
theorem slice_set (B : Bytes) {p lo hi : Nat} (c : Byte) (h : p < lo ∨ hi ≤ p) :
    slice (B.set p c) lo hi = slice B lo hi := by
  apply List.ext_getElem?
  intro i
  rw [getElem?_slice, getElem?_slice]
  split_ifs with hi
  · exact List.getElem?_set_ne (by omega)
  · rfl

/-- A byte of the message reaches the output in its own place and the 16 after it. -/
theorem getElem?_cfbDecrypt_set {F : Bytes} (hF : F.length = 16) (msg : Bytes) {i k : Nat} (c : Byte)
    (h : k < i ∨ i + 16 < k) : (cfbDecrypt E F (msg.set i c))[k]? = (cfbDecrypt E F msg)[k]? := by
  have hset : F ++ msg.set i c = (F ++ msg).set (16 + i) c := by
    rw [← hF, List.set_append_right _ _ (Nat.le_add_right _ _), Nat.add_sub_cancel_left]
  rw [getElem?_cfbDecrypt E hF, getElem?_cfbDecrypt E hF, hset, slice_set _ c (by omega),
    List.getElem?_set_ne (by omega)]

end

end Sys2Proof.Machine
end

section
/-! CTR byte by byte (R260 to R262). -/

namespace Sys2Proof.Machine

/-- Byte k of the keystream from block index j. -/
def ctrKeystream (E : Bytes → Bytes) (Q : BitVec 64 → Bytes) (j : BitVec 64) (k : Nat) : Byte :=
  (E (Q (j + BitVec.ofNat 64 (k / 16)))).getD (k % 16) 0

section
variable {E : Bytes → Bytes} {Q : BitVec 64 → Bytes}

theorem ctrKeystream_of_lt (j : BitVec 64) {k : Nat} (h : k < 16) : ctrKeystream E Q j k = (E (Q j)).getD k 0 := by
  rw [ctrKeystream, Nat.div_eq_of_lt h, Nat.mod_eq_of_lt h, BitVec.ofNat_eq_ofNat, BitVec.add_zero]

theorem ctrKeystream_add (j : BitVec 64) (k : Nat) : ctrKeystream E Q j (k + 16) = ctrKeystream E Q (j + 1) k := by
  rw [ctrKeystream, ctrKeystream, Nat.add_mod_right, Nat.add_div_right k (by decide), Nat.add_comm (k / 16) 1,
    BitVec.ofNat_add, BitVec.add_assoc]
  rfl

/-- A block of at most 16 bytes XOR the first bytes of its keystream block. -/
theorem xorBytes_take_eq_mapIdx (hE : ∀ X, (E X).length = 16) (j : BitVec 64) {M : Bytes} (h : M.length ≤ 16) :
    xorBytes M ((E (Q j)).take M.length) = M.mapIdx fun k x => x ^^^ ctrKeystream E Q j k := by
  apply List.ext_getElem?
  intro k
  rw [getElem?_xorBytes, List.getElem?_mapIdx]
  by_cases hk : k < M.length
  · have hlt : k < (E (Q j)).length := by rw [hE]; omega
    rw [List.getElem?_take_of_lt hk, List.getElem?_eq_getElem hk, List.getElem?_eq_getElem hlt,
      ctrKeystream_of_lt j (by omega), List.getD_eq_getElem _ _ hlt]
    rfl
  · rw [List.getElem?_eq_none (by omega)]
    rfl

/-- CTR XORs the keystream onto the message, byte by byte. -/
theorem ctrBlocks_eq_mapIdx (hE : ∀ X, (E X).length = 16) (j : BitVec 64) (M : Bytes) :
    ctrBlocks E Q j (blocksOf M) = M.mapIdx fun k x => x ^^^ ctrKeystream E Q j k := by
  induction M using blocks_induction generalizing j with
  | short M h =>
    by_cases h0 : M = []
    · rw [h0]
      rfl
    · rw [blocksOf_short h0 h, ctrBlocks, ctrBlocks, List.append_nil, xorBytes_take_eq_mapIdx hE j h]
  | append X M hX ih =>
    rw [blocksOf_append hX, ctrBlocks, List.mapIdx_append, xorBytes_take_eq_mapIdx hE j hX.le, ih]
    simp only [hX, ctrKeystream_add]

theorem ctrCrypt_eq_mapIdx (hE : ∀ X, (E X).length = 16) (hex : BitVec 64 → Vector Byte 8) (iv msg : Bytes) :
    ctrCrypt E hex iv msg = msg.mapIdx fun k x => x ^^^ ctrKeystream E (counterBlock hex iv) 0 k :=
  ctrBlocks_eq_mapIdx hE 0 msg

theorem ctrCrypt_ctrCrypt (hE : ∀ X, (E X).length = 16) (hex : BitVec 64 → Vector Byte 8) (iv msg : Bytes) :
    ctrCrypt E hex iv (ctrCrypt E hex iv msg) = msg := by
  rw [ctrCrypt_eq_mapIdx hE, ctrCrypt_eq_mapIdx hE]
  apply List.ext_getElem?
  intro k
  rw [List.getElem?_mapIdx, List.getElem?_mapIdx]
  cases msg[k]? <;> simp

theorem length_ctrCrypt (hE : ∀ X, (E X).length = 16) (hex : BitVec 64 → Vector Byte 8) (iv msg : Bytes) :
    (ctrCrypt E hex iv msg).length = msg.length := by
  rw [ctrCrypt_eq_mapIdx hE, List.length_mapIdx]

end

end Sys2Proof.Machine
end

section
/-! The mode operations (R220 to R262): the checks in their order (R286), and each operation behind its ports. -/

namespace Sys2Proof.Machine

section
variable {key iv : Bytes} {v : Variant} {c : Except Error Unit} {e : Error}

theorem validateMode_of_valid (hv : key.length = v.keyBytes) (hc : c = .ok ()) : validateMode key c = .ok v := by
  rw [validateMode, variantOf_eq_ok.2 hv, hc, thenCheck_ok_ok]

theorem validateMode_of_not_validKey (h : ¬ validKey key) : validateMode key c = .error .invalidKeyLength := by
  rw [validateMode, variantOf_of_not_validKey h, thenCheck_error]

theorem validateMode_of_error (h : validKey key) (hc : c = .error e) : validateMode key c = .error e := by
  obtain ⟨v, hv⟩ := exists_variant_of_validKey h
  rw [validateMode, variantOf_eq_ok.2 hv, hc, thenCheck_ok_error]

theorem validateModeIv_of_valid (hv : key.length = v.keyBytes) (hiv : iv.length = 16) (hc : c = .ok ()) :
    validateModeIv key iv c = .ok v := by
  rw [validateModeIv, variantOf_eq_ok.2 hv, checkBlock_of_length hiv, thenCheck_ok_ok, hc, thenCheck_ok_ok]

theorem validateModeIv_of_not_validKey (h : ¬ validKey key) : validateModeIv key iv c = .error .invalidKeyLength := by
  rw [validateModeIv, variantOf_of_not_validKey h, thenCheck_error, thenCheck_error]

theorem validateModeIv_of_length_ne (h : validKey key) (hiv : iv.length ≠ 16) :
    validateModeIv key iv c = .error .invalidBlockLength := by
  obtain ⟨v, hv⟩ := exists_variant_of_validKey h
  rw [validateModeIv, variantOf_eq_ok.2 hv, checkBlock_of_length_ne hiv, thenCheck_ok_error, thenCheck_error]

theorem validateModeIv_of_error (h : validKey key) (hiv : iv.length = 16) (hc : c = .error e) :
    validateModeIv key iv c = .error e := by
  obtain ⟨v, hv⟩ := exists_variant_of_validKey h
  rw [validateModeIv, variantOf_eq_ok.2 hv, checkBlock_of_length hiv, thenCheck_ok_ok, hc, thenCheck_ok_error]

end

section
variable {s : State} {iv key msg : Bytes}

/-- The check of the message that a mode operation makes (R224, R250). -/
def messageCheck (i : Instr) (msg : Bytes) : Except Error Unit :=
  match i with
  | .ecbDec | .cbcDec => checkWholeBlocks msg
  | .cfbEnc | .cfbDec | .ctrEnc | .ctrDec => checkNonEmpty msg
  | _ => .ok ()

theorem checkWholeBlocks_of_mod_ne (h : msg.length % 16 ≠ 0) : checkWholeBlocks msg = .error .invalidBlockLength :=
  checkWholeBlocks_eq_error.2 (.inl ⟨rfl, h⟩)

theorem checkWholeBlocks_nil : checkWholeBlocks [] = .error .emptyInput := rfl

theorem checkWholeBlocks_of_mod (h : msg.length % 16 = 0) (h0 : msg ≠ []) : checkWholeBlocks msg = .ok () :=
  checkWholeBlocks_eq_ok.2 ⟨h, h0⟩

theorem checkNonEmpty_of_ne_nil (h0 : msg ≠ []) : checkNonEmpty msg = .ok () := checkNonEmpty_eq_ok.2 h0

theorem ctrTooLong_of_le (h : msg.length ≤ 16 * 2 ^ 64) : ctrTooLong msg = false :=
  decide_eq_false (by omega)

theorem ctrTooLong_of_lt (h : 16 * 2 ^ 64 < msg.length) : ctrTooLong msg = true :=
  decide_eq_true (by omega)

/-! The operations without an IV. -/

theorem exec_ecbEnc (hk : s.inp.key = some key) (hm : s.inp.msg = some msg) : exec .ecbEnc s =
    whenValid (validateMode key (.ok ())) s fun v =>
      complete { out := some (ecbMap (encryptWith s.roms v key) (pad msg)) } s := by
  change execEcbEnc s = _
  rw [execEcbEnc, hk, hm, onPort_some, onPort_some]

theorem exec_ecbDec (hk : s.inp.key = some key) (hm : s.inp.msg = some msg) : exec .ecbDec s =
    whenValid (validateMode key (checkWholeBlocks msg)) s fun v =>
      finishUnpadded (ecbMap (decryptWith s.roms v key) msg) s := by
  change execEcbDec s = _
  rw [execEcbDec, hk, hm, onPort_some, onPort_some]

/-! The operations with an IV: one shape. -/

/-- What a mode operation with an IV does once its checks have passed. -/
def ivModeBody (i : Instr) (s : State) (iv key msg : Bytes) (v : Variant) : Result :=
  match i with
  | .cbcEnc => complete { out := some (cbcEncrypt (encryptWith s.roms v key) iv (blocksOf (pad msg))) } s
  | .cbcDec => finishUnpadded (cbcDecrypt (decryptWith s.roms v key) iv (blocksOf msg)) s
  | .cfbEnc => complete { out := some (cfbEncrypt (encryptWith s.roms v key) iv msg) } s
  | .cfbDec => complete { out := some (cfbDecrypt (encryptWith s.roms v key) iv msg) } s
  | _ => complete { out := some (ctrCrypt (encryptWith s.roms v key) Config.hexEncodeCounter iv msg) } s

/-- The mode operations with an IV (R63). -/
def ivModes : List Instr := [.cbcEnc, .cbcDec, .cfbEnc, .cfbDec, .ctrEnc, .ctrDec]

/-- The three ports of a mode operation with an IV are read in their order. -/
theorem onPort_iv_key_msg {k : Bytes → Bytes → Bytes → Result} (hiv : s.inp.iv = some iv) (hk : s.inp.key = some key)
    (hm : s.inp.msg = some msg) :
    (onPort s.inp.iv fun iv => onPort s.inp.key fun key => onPort s.inp.msg fun msg => k iv key msg) = k iv key msg := by
  rw [hiv, hk, hm, onPort_some, onPort_some, onPort_some]

theorem ctrOp_of_lt {hex : BitVec 64 → Vector Byte 8} (hiv : s.inp.iv = some iv) (hk : s.inp.key = some key)
    (hm : s.inp.msg = some msg) (hlen : 16 * 2 ^ 64 < msg.length) : ctrOp hex s = .refused .ctrMessageTooLong := by
  rw [ctrOp, onPort_iv_key_msg hiv hk hm, if_pos (ctrTooLong_of_lt hlen)]

theorem ctrOp_of_le {hex : BitVec 64 → Vector Byte 8} (hiv : s.inp.iv = some iv) (hk : s.inp.key = some key)
    (hm : s.inp.msg = some msg) (hlen : msg.length ≤ 16 * 2 ^ 64) : ctrOp hex s =
      whenValid (validateModeIv key iv (checkNonEmpty msg)) s fun v =>
        complete { out := some (ctrCrypt (encryptWith s.roms v key) hex iv msg) } s := by
  rw [ctrOp, onPort_iv_key_msg hiv hk hm, if_neg (by rw [ctrTooLong_of_le hlen]; decide)]

/-- The checks, then the operation's own part; for CTR, behind the bound on the message. -/
theorem exec_ivMode {i : Instr} (hi : i ∈ ivModes) (hiv : s.inp.iv = some iv) (hk : s.inp.key = some key)
    (hm : s.inp.msg = some msg) (hlen : i = .ctrEnc ∨ i = .ctrDec → msg.length ≤ 16 * 2 ^ 64) :
    exec i s = whenValid (validateModeIv key iv (messageCheck i msg)) s (ivModeBody i s iv key msg) := by
  simp only [ivModes, List.mem_cons, List.not_mem_nil, or_false] at hi
  obtain rfl | rfl | rfl | rfl | rfl | rfl := hi
  · exact onPort_iv_key_msg hiv hk hm
  · exact onPort_iv_key_msg hiv hk hm
  · exact onPort_iv_key_msg hiv hk hm
  · exact onPort_iv_key_msg hiv hk hm
  · exact ctrOp_of_le hiv hk hm (hlen (.inl rfl))
  · exact ctrOp_of_le hiv hk hm (hlen (.inr rfl))

theorem exec_ivMode_of_valid {i : Instr} {v : Variant} (hi : i ∈ ivModes) (hiv : s.inp.iv = some iv)
    (hk : s.inp.key = some key) (hm : s.inp.msg = some msg)
    (hlen : i = .ctrEnc ∨ i = .ctrDec → msg.length ≤ 16 * 2 ^ 64) (hv : key.length = v.keyBytes)
    (hiv16 : iv.length = 16) (hc : messageCheck i msg = .ok ()) : exec i s = ivModeBody i s iv key msg v := by
  rw [exec_ivMode hi hiv hk hm hlen, validateModeIv_of_valid hv hiv16 hc, whenValid_ok]

theorem exec_ivMode_of_error {i : Instr} {e : Error} (hi : i ∈ ivModes) (hiv : s.inp.iv = some iv)
    (hk : s.inp.key = some key) (hm : s.inp.msg = some msg)
    (hlen : i = .ctrEnc ∨ i = .ctrDec → msg.length ≤ 16 * 2 ^ 64)
    (he : validateModeIv key iv (messageCheck i msg) = .error e) : exec i s = .next (s.respond (.err e) {}) := by
  rw [exec_ivMode hi hiv hk hm hlen, he, whenValid_error]

end

/-- Every check of the message but CBC_ENC's reports an empty one. -/
theorem messageCheck_nil {i : Instr} (hi : i ∈ ivModes) (h : i ≠ .cbcEnc) : messageCheck i [] = .error .emptyInput := by
  simp only [ivModes, List.mem_cons, List.not_mem_nil, or_false] at hi
  obtain rfl | rfl | rfl | rfl | rfl | rfl := hi
  · exact absurd rfl h
  all_goals rfl

/-- Settles O49: the checks of each shape, in order. -/
theorem errorsAreReportedInOrder : Obligations.ErrorsAreReportedInOrder := by
  refine ⟨fun s key msg hk hm => ⟨fun h => ?_, fun h hmod => ?_, fun h hnil => ?_⟩,
    fun i hi s iv key msg hiv hk hm hlen => ⟨fun h => ?_, fun h hiv16 => ?_, fun hcbc h hmod => ?_,
      fun hne h hiv16 hnil => ?_⟩,
    fun i hi s block key hb hk => ?_⟩
  · rw [exec_ecbEnc hk hm, exec_ecbDec hk hm, validateMode_of_not_validKey h, validateMode_of_not_validKey h]
    exact ⟨rfl, rfl⟩
  · rw [exec_ecbDec hk hm, validateMode_of_error h (checkWholeBlocks_of_mod_ne hmod), whenValid_error]
  · rw [exec_ecbDec hk hm, hnil, validateMode_of_error h checkWholeBlocks_nil, whenValid_error]
  · exact exec_ivMode_of_error hi hiv hk hm (fun _ => hlen) (validateModeIv_of_not_validKey h)
  · exact exec_ivMode_of_error hi hiv hk hm (fun _ => hlen) (validateModeIv_of_length_ne h hiv16)
  · subst hcbc
    refine exec_ivMode_of_error hi hiv hk hm (fun _ => hlen) ?_
    by_cases hiv16 : iv.length = 16
    · exact validateModeIv_of_error h hiv16 (checkWholeBlocks_of_mod_ne hmod)
    · exact validateModeIv_of_length_ne h hiv16
  · refine exec_ivMode_of_error hi hiv hk hm (fun _ => hlen) (validateModeIv_of_error h hiv16 ?_)
    rw [hnil, messageCheck_nil hi hne]
  · obtain rfl | hi := List.mem_cons.1 hi
    · exact ⟨blockOp_of_not_validKey hb hk, blockOp_of_length_ne hb hk⟩
    · obtain rfl := List.mem_singleton.1 hi
      exact ⟨blockOp_of_not_validKey hb hk, blockOp_of_length_ne hb hk⟩

end Sys2Proof.Machine
end

section
/-! What each mode answers (R230 to R263). -/

namespace Sys2Proof.Machine

theorem finishUnpadded_of_some {P M : Bytes} {s : State} (h : unpad P = some M) :
    finishUnpadded P s = .next (s.respond .ok { out := some M }) := by
  rw [finishUnpadded, h]
  rfl

theorem finishUnpadded_of_none {P : Bytes} {s : State} (h : unpad P = none) :
    finishUnpadded P s = .fault .unpadUnderflow := by
  rw [finishUnpadded, h]

/-- Unpadding a sequence with a byte that is not zero has a result. -/
theorem exists_unpad_of_exists_ne {P : Bytes} (h : ∃ x ∈ P, x ≠ 0x00) : ∃ M, unpad P = some M := by
  refine Option.ne_none_iff_exists'.1 fun hnone => ?_
  obtain ⟨x, hx, hne⟩ := h
  exact hne (unpad_eq_none_iff.1 hnone x hx)

/-- The two ends of a decryption that answers `finishUnpadded P s`. -/
theorem finishUnpadded_ends {P : Bytes} {s : State} {r : Result} (hr : r = finishUnpadded P s) :
    ((∃ x ∈ P, x ≠ 0x00) → ∃ M, unpad P = some M ∧ r = .next (s.respond .ok { out := some M })) ∧
      ((∀ x ∈ P, x = 0x00) → r = .fault .unpadUnderflow) := by
  refine ⟨fun h => ?_, fun h => hr.trans (finishUnpadded_of_none (unpad_eq_none_iff.2 h))⟩
  obtain ⟨M, hM⟩ := exists_unpad_of_exists_ne h
  exact ⟨M, hM, hr.trans (finishUnpadded_of_some hM)⟩

section
variable {s : State} {iv key msg : Bytes} {v : Variant}

/-! ECB and CBC. -/

theorem exec_ecbEnc_of_valid (hk : s.inp.key = some key) (hm : s.inp.msg = some msg) (hv : key.length = v.keyBytes) :
    exec .ecbEnc s = .next (s.respond .ok { out := some (ecbMap (encryptWith s.roms v key) (pad msg)) }) := by
  rw [exec_ecbEnc hk hm, validateMode_of_valid hv rfl, whenValid_ok, complete_eq]

theorem exec_ecbDec_of_valid (hk : s.inp.key = some key) (hm : s.inp.msg = some msg) (hv : key.length = v.keyBytes)
    (h0 : msg ≠ []) (hmod : msg.length % 16 = 0) :
    exec .ecbDec s = finishUnpadded (ecbMap (decryptWith s.roms v key) msg) s := by
  rw [exec_ecbDec hk hm, validateMode_of_valid hv (checkWholeBlocks_of_mod hmod h0), whenValid_ok]

theorem exec_cbcEnc_of_valid (hiv : s.inp.iv = some iv) (hk : s.inp.key = some key) (hm : s.inp.msg = some msg)
    (hv : key.length = v.keyBytes) (hiv16 : iv.length = 16) : exec .cbcEnc s =
      .next (s.respond .ok { out := some (cbcEncrypt (encryptWith s.roms v key) iv (blocksOf (pad msg))) }) :=
  exec_ivMode_of_valid (by decide) hiv hk hm (by simp) hv hiv16 rfl

theorem exec_cbcDec_of_valid (hiv : s.inp.iv = some iv) (hk : s.inp.key = some key) (hm : s.inp.msg = some msg)
    (hv : key.length = v.keyBytes) (hiv16 : iv.length = 16) (h0 : msg ≠ []) (hmod : msg.length % 16 = 0) :
    exec .cbcDec s = finishUnpadded (cbcDecrypt (decryptWith s.roms v key) iv (blocksOf msg)) s :=
  exec_ivMode_of_valid (by decide) hiv hk hm (by simp) hv hiv16 (checkWholeBlocks_of_mod hmod h0)

end

theorem length_pad_block {msg : Bytes} {b : Nat} (hb : b < msg.length / 16 + 1) : 16 * b < (pad msg).length := by
  rw [length_pad]
  omega

/-- Settles O50: ECB on the padded message. -/
theorem ecbEncEnciphersEachBlock : Obligations.EcbEncEnciphersEachBlock := by
  refine fun s key msg hk hm => ⟨fun v hv => ⟨_, exec_ecbEnc_of_valid hk hm hv, ?_, fun b hb => ?_⟩, fun h => ?_⟩
  · rw [length_ecbMap (length_encryptWith s.roms v key) (wholeBlocks_pad msg), length_pad]
  · exact slice_ecbMap (length_encryptWith s.roms v key) (wholeBlocks_pad msg) (length_pad_block hb)
  · rw [exec_ecbEnc hk hm, validateMode_of_not_validKey h, whenValid_error]

/-- Settles O51: ECB on the message's blocks, then the end of a decryption. -/
theorem ecbDecDeciphersEachBlock : Obligations.EcbDecDeciphersEachBlock := by
  rintro s key msg P v hk hm hv h0 hmod rfl
  have hwhole := wholeBlocks_of_mod hmod
  exact ⟨length_ecbMap (length_decryptWith s.roms v key) hwhole,
    fun b hb => slice_ecbMap (length_decryptWith s.roms v key) hwhole (by omega),
    finishUnpadded_ends (exec_ecbDec_of_valid hk hm hv h0 hmod)⟩

/-- Settles O52: CBC on the padded message. -/
theorem cbcEncChainsTheBlocks : Obligations.CbcEncChainsTheBlocks := by
  refine fun s iv key msg v hiv hk hm hv hiv16 => ⟨_, exec_cbcEnc_of_valid hiv hk hm hv hiv16, ?_, fun b hb => ?_⟩
  · rw [length_cbcEncrypt (length_encryptWith s.roms v key) (wholeBlocks_pad msg), length_pad]
  · rw [← slice_block_before hiv16]
    exact slice_cbcEncrypt (length_encryptWith s.roms v key) hiv16 (wholeBlocks_pad msg) (length_pad_block hb)

/-- Settles O53: CBC on the message's blocks, then the end of a decryption. -/
theorem cbcDecUnchainsTheBlocks : Obligations.CbcDecUnchainsTheBlocks := by
  rintro s iv key msg P v hiv hk hm hv hiv16 h0 hmod rfl
  have hwhole := wholeBlocks_of_mod hmod
  refine ⟨length_cbcDecrypt (length_decryptWith s.roms v key) hiv16 hwhole, fun b hb => ?_,
    finishUnpadded_ends (exec_cbcDec_of_valid hiv hk hm hv hiv16 h0 hmod)⟩
  rw [← slice_block_before hiv16]
  exact slice_cbcDecrypt (length_decryptWith s.roms v key) hiv16 hwhole (by omega)

theorem ne_nil_of_length_eq_pad {c msg : Bytes} (h : c.length = (pad msg).length) : c ≠ [] :=
  List.ne_nil_of_length_pos (by rw [h, length_pad]; omega)

theorem mod_of_length_eq_pad {c msg : Bytes} (h : c.length = (pad msg).length) : c.length % 16 = 0 := by
  rw [h, length_pad, Nat.mul_mod_right]

/-- Settles O58: the modes undo each other on the padded message, and the message is one that unpadding gives back. -/
theorem ecbCbcRoundTrip : Obligations.EcbCbcRoundTrip := by
  constructor
  · intro s key msg hroms hk hm hvalid hrev
    obtain ⟨v, hv⟩ := exists_variant_of_validKey hvalid
    refine ⟨_, exec_ecbEnc_of_valid hk hm hv, ?_⟩
    have hlen := length_ecbMap (length_encryptWith s.roms v key) (wholeBlocks_pad msg)
    rw [exec_ecbDec_of_valid (s := s.withPort .msg _) hk rfl hv (ne_nil_of_length_eq_pad hlen)
        (mod_of_length_eq_pad hlen), withPort_roms, hroms,
      ecbMap_ecbMap (length_encryptWith _ v key) (fun _ => decryptWith_encryptWith v key) (wholeBlocks_pad msg)]
    exact finishUnpadded_of_some ((unpad_pad_iff msg).2 hrev)
  · intro s iv key msg hroms hiv hk hm hvalid hiv16 hrev
    obtain ⟨v, hv⟩ := exists_variant_of_validKey hvalid
    refine ⟨_, exec_cbcEnc_of_valid hiv hk hm hv hiv16, ?_⟩
    have hlen := length_cbcEncrypt (P := iv) (length_encryptWith s.roms v key) (wholeBlocks_pad msg)
    rw [exec_cbcDec_of_valid (s := s.withPort .msg _) hiv hk rfl hv hiv16 (ne_nil_of_length_eq_pad hlen)
        (mod_of_length_eq_pad hlen), withPort_roms, hroms, cbcDecrypt_cbcEncrypt (length_encryptWith _ v key)
        (fun _ => decryptWith_encryptWith v key) hiv16 (wholeBlocks_pad msg)]
    exact finishUnpadded_of_some ((unpad_pad_iff msg).2 hrev)

/-! CFB and CTR. -/

section
variable {s : State} {iv key msg : Bytes} {v : Variant}

theorem exec_cfbEnc_of_valid (hiv : s.inp.iv = some iv) (hk : s.inp.key = some key) (hm : s.inp.msg = some msg)
    (hv : key.length = v.keyBytes) (hiv16 : iv.length = 16) (h0 : msg ≠ []) :
    exec .cfbEnc s = .next (s.respond .ok { out := some (cfbEncrypt (encryptWith s.roms v key) iv msg) }) :=
  exec_ivMode_of_valid (by decide) hiv hk hm (by simp) hv hiv16 (checkNonEmpty_of_ne_nil h0)

theorem exec_cfbDec_of_valid (hiv : s.inp.iv = some iv) (hk : s.inp.key = some key) (hm : s.inp.msg = some msg)
    (hv : key.length = v.keyBytes) (hiv16 : iv.length = 16) (h0 : msg ≠ []) :
    exec .cfbDec s = .next (s.respond .ok { out := some (cfbDecrypt (encryptWith s.roms v key) iv msg) }) :=
  exec_ivMode_of_valid (by decide) hiv hk hm (by simp) hv hiv16 (checkNonEmpty_of_ne_nil h0)

theorem exec_ctr {i : Instr} (hi : i ∈ [Instr.ctrEnc, .ctrDec]) (s : State) :
    exec i s = ctrOp Config.hexEncodeCounter s := by
  obtain rfl | hi := List.mem_cons.1 hi
  · rfl
  · obtain rfl := List.mem_singleton.1 hi
    rfl

theorem exec_ctr_of_valid {i : Instr} (hi : i ∈ [Instr.ctrEnc, .ctrDec]) (hiv : s.inp.iv = some iv)
    (hk : s.inp.key = some key) (hm : s.inp.msg = some msg) (hv : key.length = v.keyBytes) (hiv16 : iv.length = 16)
    (h0 : msg ≠ []) (hlen : msg.length ≤ 16 * 2 ^ 64) : exec i s =
      .next (s.respond .ok { out := some (ctrCrypt (encryptWith s.roms v key) Config.hexEncodeCounter iv msg) }) := by
  rw [exec_ctr hi, ctrOp_of_le hiv hk hm hlen, validateModeIv_of_valid hv hiv16 (checkNonEmpty_of_ne_nil h0),
    whenValid_ok, complete_eq]

end

/-- Settles O54: the feedback register is the last 16 bytes of the IV and the output. -/
theorem cfbEncFeedsBackTheCiphertext : Obligations.CfbEncFeedsBackTheCiphertext :=
  fun s _ key msg v hiv hk hm hv hiv16 h0 => ⟨_, exec_cfbEnc_of_valid hiv hk hm hv hiv16 h0, length_cfbEncrypt _ _ _,
    getElem?_cfbEncrypt (encryptWith s.roms v key) hiv16 msg⟩

/-- Settles O55: the feedback register is the last 16 bytes of the IV and the message, so 16 places on it is free of a
replaced byte. -/
theorem cfbDecIsSelfSynchronising : Obligations.CfbDecIsSelfSynchronising := by
  intro s iv key msg v hiv hk hm hv hiv16 h0
  refine ⟨_, exec_cfbDec_of_valid hiv hk hm hv hiv16 h0, length_cfbDecrypt _ _ _,
    getElem?_cfbDecrypt (encryptWith s.roms v key) hiv16 msg, fun i c => ⟨_, exec_cfbDec_of_valid hiv hk rfl hv hiv16 ?_,
      fun k hk => getElem?_cfbDecrypt_set (encryptWith s.roms v key) hiv16 msg c hk⟩⟩
  rwa [ne_eq, List.set_eq_nil_iff]

/-- Settles O56: CTR is the keystream XORed onto the message. -/
theorem ctrXorsTheCounterKeystream : Obligations.CtrXorsTheCounterKeystream := by
  intro i hi s iv key msg v hiv hk hm hv hiv16 h0 hlen
  have hE := length_encryptWith s.roms v key
  refine ⟨_, exec_ctr_of_valid hi hiv hk hm hv hiv16 h0 hlen, length_ctrCrypt hE _ _ _, fun k => ?_⟩
  rw [ctrCrypt_eq_mapIdx hE, List.getElem?_mapIdx]
  simp only [ctrKeystream, counterBlock, zero_add]

/-- Settles O57: the counter block takes the first half of the IV only, and the refusal comes before the checks. -/
theorem ctrReadsHalfTheIv : Obligations.CtrReadsHalfTheIv := by
  refine ⟨fun i hi s t iv iv' hroms hiv hiv' h16 h16' hhalf hk hm => ?_,
    fun i hi s iv key msg hiv hk hm hlen => (exec_ctr hi s).trans (ctrOp_of_lt hiv hk hm hlen)⟩
  have hQ : counterBlock Config.hexEncodeCounter iv = counterBlock Config.hexEncodeCounter iv' := by
    funext j
    rw [counterBlock, counterBlock, hhalf]
  rw [exec_ctr hi, exec_ctr hi, ctrOp, ctrOp, hiv, hiv', hk, hm, hroms, onPort_some, onPort_some]
  refine (sameEnd_onPort (s := s) (t := t) _ fun key => sameEnd_onPort _ fun msg => ?_).sameAnswer
  cases ctrTooLong msg with
  | true => exact .refused _
  | false =>
    simp only [validateModeIv, checkBlock_of_length h16, checkBlock_of_length h16', ctrCrypt, hQ]
    exact sameEnd_whenValid _ fun _ => sameEnd_complete _

theorem ne_nil_of_length_eq {c msg : Bytes} (h : c.length = msg.length) (h0 : msg ≠ []) : c ≠ [] :=
  List.ne_nil_of_length_pos (h ▸ List.length_pos_iff.2 h0)

/-- Settles O59: CFB decryption follows the encryption, and CTR is its own inverse. -/
theorem cfbCtrRoundTrip : Obligations.CfbCtrRoundTrip := by
  intro s iv key msg hiv hk hm hvalid hiv16 h0
  obtain ⟨v, hv⟩ := exists_variant_of_validKey hvalid
  refine ⟨⟨_, exec_cfbEnc_of_valid hiv hk hm hv hiv16 h0, ?_⟩, fun hlen => ?_⟩
  · have hne := ne_nil_of_length_eq (length_cfbEncrypt (encryptWith s.roms v key) iv msg) h0
    rw [exec_cfbDec_of_valid (s := s.withPort .msg _) hiv hk rfl hv hiv16 hne, withPort_roms, cfbDecrypt_cfbEncrypt]
  · have hE := length_encryptWith s.roms v key
    have hc := length_ctrCrypt hE Config.hexEncodeCounter iv msg
    have hback (i : Instr) (hi : i ∈ [Instr.ctrEnc, .ctrDec]) :
        exec i (s.withPort .msg (ctrCrypt (encryptWith s.roms v key) Config.hexEncodeCounter iv msg)) =
          .next ((s.withPort .msg (ctrCrypt (encryptWith s.roms v key) Config.hexEncodeCounter iv msg)).respond .ok
            { out := some msg }) := by
      rw [exec_ctr_of_valid (s := s.withPort .msg _) hi hiv hk rfl hv hiv16 (ne_nil_of_length_eq hc h0) (hc ▸ hlen),
        withPort_roms,
        ctrCrypt_ctrCrypt hE]
    exact ⟨_, exec_ctr_of_valid (by decide) hiv hk hm hv hiv16 h0 hlen, hback .ctrDec (by decide),
      hback .ctrEnc (by decide)⟩

end Sys2Proof.Machine
end

section
/-! The model faults (R287, D10, D12): only the end of an operation can fault, so a fault is read back through the ports and
the checks before it. -/

namespace Sys2Proof.Machine

section
variable {f : Fault} {s : State}

theorem complete_ne_fault (o : OutPorts) : complete o s ≠ .fault f := nofun

theorem onByte_eq_fault {port : Option Bytes} {k : Byte → Result} :
    onByte port k = .fault f ↔ ∃ x, port = some [x] ∧ k x = .fault f := by
  constructor
  · intro h
    obtain ⟨x, hp, hk⟩ | hk := onByte_cases port k
    · exact ⟨x, hp, hk.symm.trans h⟩
    · cases hk.symm.trans h
  · rintro ⟨x, rfl, h⟩
    exact h

theorem onFixed_eq_fault {n : Nat} {port : Option Bytes} {k : Bytes → Result} (h : onFixed n port k = .fault f) :
    ∃ B, k B = .fault f := by
  obtain ⟨B, -, -, hk⟩ | hk := onFixed_cases n port k
  · exact ⟨B, hk.symm.trans h⟩
  · cases hk.symm.trans h

theorem onPort_eq_fault {port : Option Bytes} {k : Bytes → Result} :
    onPort port k = .fault f ↔ ∃ B, port = some B ∧ k B = .fault f := by
  cases port <;> simp [onPort]

theorem whenValid_eq_fault {α : Type} {check : Except Error α} {k : α → Result} :
    whenValid check s k = .fault f ↔ ∃ x, check = .ok x ∧ k x = .fault f := by
  cases check <;> simp [whenValid]

theorem finishUnpadded_eq_fault {P : Bytes} :
    finishUnpadded P s = .fault f ↔ f = .unpadUnderflow ∧ ∀ x ∈ P, x = 0x00 := by
  rw [← unpad_eq_none_iff]
  obtain ⟨M, hM, hk⟩ | ⟨hM, hk⟩ := finishUnpadded_cases P s <;> rw [hk, hM]
  · simp
  · simp [eq_comm]

end

theorem validateMode_eq_ok {key : Bytes} {c : Except Error Unit} {v : Variant} :
    validateMode key c = .ok v ↔ variantOf key = .ok v ∧ c = .ok () := by
  rw [validateMode, thenCheck_eq_ok]
  exact and_congr_right fun _ => ⟨fun ⟨_, h⟩ => h, fun h => ⟨(), h⟩⟩

theorem validateModeIv_eq_ok {key iv : Bytes} {c : Except Error Unit} {v : Variant} :
    validateModeIv key iv c = .ok v ↔ variantOf key = .ok v ∧ iv.length = 16 ∧ c = .ok () := by
  rw [validateModeIv, thenCheck_eq_ok, thenCheck_eq_ok]
  constructor
  · rintro ⟨⟨hv, _, hiv⟩, _, hc⟩
    exact ⟨hv, checkBlock_eq_ok.1 hiv, hc⟩
  · rintro ⟨hv, hiv, hc⟩
    exact ⟨⟨hv, (), checkBlock_of_length hiv⟩, (), hc⟩

section
variable {f : Fault} {s : State}

/-- RCON faults outside its domain. -/
theorem exec_rcon_eq_fault : exec .rcon s = .fault f ↔
    f = .rconIndexOutOfDomain ∧ ∃ a : Byte, s.inp.a = some [a] ∧ (a.toNat = 0 ∨ 11 ≤ a.toNat) := by
  constructor
  · intro h
    obtain ⟨a, ha, hk⟩ := onByte_eq_fault.1 h
    cases hr : s.roms.rconAt a.toNat with
    | none =>
      rw [hr] at hk
      exact ⟨(Host.Outcome.fault.inj hk).symm, a, ha, rconAt_eq_none_iff.1 hr⟩
    | some y =>
      rw [hr] at hk
      cases hk
  · rintro ⟨rfl, a, ha, hout⟩
    exact exec_rcon_of_none ha (rconAt_eq_none_iff.2 hout)

/-- ECB_DEC faults where its checks pass and nothing but zeros is left. -/
theorem exec_ecbDec_eq_fault : exec .ecbDec s = .fault f ↔
    f = .unpadUnderflow ∧ ∃ key msg v, s.inp.key = some key ∧ s.inp.msg = some msg ∧ variantOf key = .ok v ∧ msg ≠ [] ∧
      msg.length % 16 = 0 ∧ ∀ x ∈ ecbMap (decryptWith s.roms v key) msg, x = 0x00 := by
  change execEcbDec s = _ ↔ _
  simp only [execEcbDec, onPort_eq_fault, whenValid_eq_fault, finishUnpadded_eq_fault, validateMode_eq_ok,
    checkWholeBlocks_eq_ok]
  constructor
  · rintro ⟨key, hk, msg, hm, v, ⟨hv, hmod, h0⟩, hf, hz⟩
    exact ⟨hf, key, msg, v, hk, hm, hv, h0, hmod, hz⟩
  · rintro ⟨hf, key, msg, v, hk, hm, hv, h0, hmod, hz⟩
    exact ⟨key, hk, msg, hm, v, ⟨hv, hmod, h0⟩, hf, hz⟩

/-- CBC_DEC faults where its checks pass and nothing but zeros is left. -/
theorem exec_cbcDec_eq_fault : exec .cbcDec s = .fault f ↔
    f = .unpadUnderflow ∧ ∃ iv key msg v, s.inp.iv = some iv ∧ s.inp.key = some key ∧ s.inp.msg = some msg ∧
      variantOf key = .ok v ∧ iv.length = 16 ∧ msg ≠ [] ∧ msg.length % 16 = 0 ∧
      ∀ x ∈ cbcDecrypt (decryptWith s.roms v key) iv (blocksOf msg), x = 0x00 := by
  change execCbcDec s = _ ↔ _
  simp only [execCbcDec, onPort_eq_fault, whenValid_eq_fault, finishUnpadded_eq_fault, validateModeIv_eq_ok,
    checkWholeBlocks_eq_ok]
  constructor
  · rintro ⟨iv, hiv, key, hk, msg, hm, v, ⟨hv, hiv16, hmod, h0⟩, hf, hz⟩
    exact ⟨hf, iv, key, msg, v, hiv, hk, hm, hv, hiv16, h0, hmod, hz⟩
  · rintro ⟨hf, iv, key, msg, v, hiv, hk, hm, hv, hiv16, h0, hmod, hz⟩
    exact ⟨iv, hiv, key, hk, msg, hm, v, ⟨hv, hiv16, hmod, h0⟩, hf, hz⟩

/-- Every other operation ends in a response or a refusal. -/
theorem exec_ne_fault {i : Instr} (hrcon : i ≠ .rcon) (hecb : i ≠ .ecbDec) (hcbc : i ≠ .cbcDec) :
    exec i s ≠ .fault f := by
  intro h
  cases i with
  | rcon => exact hrcon rfl
  | ecbDec => exact hecb rfl
  | cbcDec => exact hcbc rfl
  | sbox | invSbox =>
    obtain ⟨a, -, h⟩ := onByte_eq_fault.1 h
    exact complete_ne_fault _ h
  | gfmul =>
    obtain ⟨a, -, h⟩ := onByte_eq_fault.1 h
    obtain ⟨b, -, h⟩ := onByte_eq_fault.1 h
    exact complete_ne_fault _ h
  | subBytes | invSubBytes | shiftRows | invShiftRows | mixColumns | invMixColumns | ks128 | ks192 | ks256 =>
    obtain ⟨B, h⟩ := onFixed_eq_fault h
    exact complete_ne_fault _ h
  | expandKey =>
    obtain ⟨key, -, h⟩ := onPort_eq_fault.1 h
    obtain ⟨v, -, h⟩ := whenValid_eq_fault.1 h
    exact complete_ne_fault _ h
  | encryptBlock | decryptBlock | ecbEnc =>
    obtain ⟨x, -, h⟩ := onPort_eq_fault.1 h
    obtain ⟨y, -, h⟩ := onPort_eq_fault.1 h
    obtain ⟨v, -, h⟩ := whenValid_eq_fault.1 h
    exact complete_ne_fault _ h
  | cbcEnc | cfbEnc | cfbDec =>
    obtain ⟨iv, -, h⟩ := onPort_eq_fault.1 h
    obtain ⟨key, -, h⟩ := onPort_eq_fault.1 h
    obtain ⟨msg, -, h⟩ := onPort_eq_fault.1 h
    obtain ⟨v, -, h⟩ := whenValid_eq_fault.1 h
    exact complete_ne_fault _ h
  | ctrEnc | ctrDec =>
    obtain ⟨iv, -, h⟩ := onPort_eq_fault.1 h
    obtain ⟨key, -, h⟩ := onPort_eq_fault.1 h
    obtain ⟨msg, -, h⟩ := onPort_eq_fault.1 h
    split_ifs at h
    obtain ⟨v, -, h⟩ := whenValid_eq_fault.1 h
    exact complete_ne_fault _ h

end

/-- Settles O17: the three operations that can fault, each exactly on its condition. -/
theorem faultsAreThoseOfTheTable : Obligations.FaultsAreThoseOfTheTable := by
  intro i s f
  by_cases hrcon : i = .rcon
  · subst hrcon
    simp [exec_rcon_eq_fault]
  by_cases hecb : i = .ecbDec
  · subst hecb
    simp [exec_ecbDec_eq_fault]
  by_cases hcbc : i = .cbcDec
  · subst hcbc
    simp [exec_cbcDec_eq_fault]
  simp [hrcon, hecb, hcbc, exec_ne_fault hrcon hecb hcbc]

end Sys2Proof.Machine
end

section
/-! The table of statuses (R282): every entry is reported on some operands. -/

namespace Sys2Proof.Machine

/-- Operands on which an operation reports a status of its row: the plain ones for OK, no key for an invalid key length, a
block or an IV of no bytes (or, without one, a message of one) for an invalid block length, and no message. -/
def reportingOperands (i : Instr) (st : Status) : List Bytes :=
  match st, i.format with
  | .ok, f => plainOperands f
  | .err .invalidKeyLength, .bk => [zeros 16, []]
  | .err .invalidKeyLength, .mk => [[], zeros 16]
  | .err .invalidKeyLength, .mik => [zeros 16, [], zeros 16]
  | .err .invalidKeyLength, _ => [[]]
  | .err .invalidBlockLength, .mk => [zeros 16, zeros 1]
  | .err .invalidBlockLength, .mik => [[], zeros 16, zeros 16]
  | .err .invalidBlockLength, _ => [[], zeros 16]
  | .err .emptyInput, .mik => [zeros 16, zeros 16, []]
  | .err .emptyInput, _ => [zeros 16, []]

/-- The status an operation reports on them after reset, run by the model. -/
theorem status_exec_reportingOperands (i : Instr) : ∀ st ∈ reportable i,
    (next? (exec i (State.reset.issue i (reportingOperands i st)))).bind State.status = some st := by
  cases i <;> decide +kernel

theorem exists_next_of_bind_status {r : Result} {st : Status} (h : (next? r).bind State.status = some st) :
    ∃ t, r = .next t ∧ t.status = some st := by
  cases r with
  | next t => exact ⟨t, rfl, h⟩
  | fault f => cases h
  | refused f => cases h

/-- Settles O15: what every answer is, and a run for every entry of the table. -/
theorem statusesAreThoseOfTheTable : Obligations.StatusesAreThoseOfTheTable := by
  refine ⟨fun i s t h => ?_, fun i st hst => ?_⟩
  · obtain ⟨st, o, rfl, hans⟩ := exec_endsWith i s t h
    exact ⟨st, hans.status_mem, rfl⟩
  · exact ⟨_, exists_next_of_bind_status (status_exec_reportingOperands i st hst)⟩

end Sys2Proof.Machine
end
